-- ==== Sys2Proof/Word.lean ====
section
/-!
DEFINITION. The word and byte types of the LC-3 interpreter core (00_scope.md R6, R9).
-/

namespace Sys2Proof

/-- The 16-bit unit of storage and computation; arithmetic wraps modulo 2^16 (R6, R9). It is also an address (R71). -/
abbrev Word := BitVec 16

/-- An 8-bit value on the console and keyboard ports (R7, R221). -/
abbrev Byte := BitVec 8

end Sys2Proof
end

