-- ==== Sys2Proof/Syntax.lean ====
section
/-!
DEFINITION. The instructions of the core: one constructor per row of spec/opcode_table.json (30_encoding.md R102, R103).
Operand bits the spec calls unused (R107) are no part of an instruction.
-/

namespace Sys2Proof

/-- The eight general registers; a 3-bit field with value i names Ri (10_state.md R41, 30_encoding.md R105). -/
inductive Reg where
  | r0 | r1 | r2 | r3 | r4 | r5 | r6 | r7
  deriving DecidableEq, Repr

/-- One instruction, with the fields of its format (R103). -/
inductive Instr where
  /-- ADD, register mode: format OPR, ir[5] = 0 (R170). -/
  | addReg (dr sr1 sr2 : Reg)
  /-- ADD, immediate mode: format OPI, ir[5] = 1 (R170). -/
  | addImm (dr sr1 : Reg) (imm5 : BitVec 5)
  /-- AND, register mode (R171). -/
  | andReg (dr sr1 sr2 : Reg)
  /-- AND, immediate mode (R171). -/
  | andImm (dr sr1 : Reg) (imm5 : BitVec 5)
  /-- NOT (R172). -/
  | not (dr sr : Reg)
  /-- LD, PC-relative load (R180). -/
  | ld (dr : Reg) (off9 : BitVec 9)
  /-- LDI, indirect load (R181). -/
  | ldi (dr : Reg) (off9 : BitVec 9)
  /-- LDR, base plus offset load (R182). -/
  | ldr (dr base : Reg) (off6 : BitVec 6)
  /-- LEA, address computation (R183). -/
  | lea (dr : Reg) (off9 : BitVec 9)
  /-- ST, PC-relative store (R190). -/
  | st (sr : Reg) (off9 : BitVec 9)
  /-- STI, indirect store (R191). -/
  | sti (sr : Reg) (off9 : BitVec 9)
  /-- STR, base plus offset store (R192). -/
  | str (sr base : Reg) (off6 : BitVec 6)
  /-- BR, conditional branch; n, z, p are ir[11], ir[10], ir[9] (R200). -/
  | br (n z p : Bool) (off9 : BitVec 9)
  /-- JMP through a base register (R201); the words with base R7 are `ret`'s (WellFormed). -/
  | jmp (base : Reg)
  /-- RET, the words of JMP whose base is R7 (R202). -/
  | ret
  /-- JSR, PC-relative call: opcode 0x4 with ir[11] = 1 (R203). -/
  | jsr (off11 : BitVec 11)
  /-- JSRR, call through a register: opcode 0x4 with ir[11] = 0 (R204). -/
  | jsrr (base : Reg)
  /-- RTI, which aborts the run (R231). -/
  | rti
  /-- RES, the reserved opcode, which aborts the run (R230). -/
  | res
  /-- TRAP (R210); the words with vector 0x20 to 0x25 are the service routines' below (WellFormed). -/
  | trap (vect8 : BitVec 8)
  /-- GETC, TRAP x20 (R211). -/
  | getc
  /-- OUT, TRAP x21 (R212). -/
  | out
  /-- PUTS, TRAP x22 (R213). -/
  | puts
  /-- IN, TRAP x23 (R214). -/
  | inChar
  /-- PUTSP, TRAP x24 (R215). -/
  | putsp
  /-- HALT, TRAP x25 (R216). -/
  | halt
  deriving DecidableEq, Repr

end Sys2Proof
end

