-- ==== Sys2Proof/WellFormed.lean ====
section
/-!
DEFINITION. Which terms of `Instr` stand for words of their own. Every field's width is in its type; what is left is that a word
with two rows in the opcode table (RET and the six service routines beside JMP and TRAP) is written in one way only
(30_encoding.md R112; log 9).
-/

namespace Sys2Proof

/-- The vectors 0x20 to 0x25 of the six service routines (45_trap.md R210). -/
def isServiceVector (v : BitVec 8) : Bool :=
  0x20#8 ≤ v && v ≤ 0x25#8

/-- A JMP whose base is R7 is written `ret`, a TRAP whose vector names a service routine is written as that routine;
every other term is well formed. `exec` gives the terms refused here their full meaning as well. -/
def WellFormed : Instr → Bool
  | .jmp base => base != .r7
  | .trap v => !isServiceVector v
  | .addReg _ _ _ | .addImm _ _ _ | .andReg _ _ _ | .andImm _ _ _ | .not _ _ => true
  | .ld _ _ | .ldi _ _ | .ldr _ _ _ | .lea _ _ => true
  | .st _ _ | .sti _ _ | .str _ _ _ => true
  | .br _ _ _ _ | .ret | .jsr _ | .jsrr _ => true
  | .rti | .res => true
  | .getc | .out | .puts | .inChar | .putsp | .halt => true

end Sys2Proof
end

