-- ==== Sys2Proof/Decode.lean ====
section
/-!
DEFINITION. Decoding an instruction word (30_encoding.md R101 to R108) and, after it, the encoder written from the same format table.
Decoding is total and refuses nothing: every one of the 65,536 words is an instruction (R108); the two opcodes that abort (RES, RTI)
are instructions of their own (R109).
-/

namespace Sys2Proof

/-- The register a 3-bit field names (R105). -/
def Reg.ofBits (b : BitVec 3) : Reg :=
  match b.toNat with
  | 0 => .r0
  | 1 => .r1
  | 2 => .r2
  | 3 => .r3
  | 4 => .r4
  | 5 => .r5
  | 6 => .r6
  | _ => .r7

/-- The 3-bit field that names a register (R105). -/
def Reg.toBits : Reg → BitVec 3
  | .r0 => 0#3
  | .r1 => 1#3
  | .r2 => 2#3
  | .r3 => 3#3
  | .r4 => 4#3
  | .r5 => 5#3
  | .r6 => 6#3
  | .r7 => 7#3

/-- The register field ir[11:9] (DR, SR), R103. -/
def fieldR9 (ir : Word) : Reg := Reg.ofBits (ir.extractLsb' 9 3)

/-- The register field ir[8:6] (SR1, SR of NOT, BaseR), R103. -/
def fieldR6 (ir : Word) : Reg := Reg.ofBits (ir.extractLsb' 6 3)

/-- The register field ir[2:0] (SR2), R103. -/
def fieldR0 (ir : Word) : Reg := Reg.ofBits (ir.extractLsb' 0 3)

/-- imm5 = ir[4:0] (R104). -/
def fieldImm5 (ir : Word) : BitVec 5 := ir.extractLsb' 0 5

/-- offset6 = ir[5:0] (R104). -/
def fieldOff6 (ir : Word) : BitVec 6 := ir.extractLsb' 0 6

/-- PCoffset9 = ir[8:0] (R104). -/
def fieldOff9 (ir : Word) : BitVec 9 := ir.extractLsb' 0 9

/-- PCoffset11 = ir[10:0] (R104). -/
def fieldOff11 (ir : Word) : BitVec 11 := ir.extractLsb' 0 11

/-- trapvect8 = ir[7:0] (R104). -/
def fieldVect8 (ir : Word) : BitVec 8 := ir.extractLsb' 0 8

/-- The opcode field ir[15:12] (R101). -/
def fieldOpcode (ir : Word) : BitVec 4 := ir.extractLsb' 12 4

/-- The JMP row and its RET row (R201, R202). -/
def decodeJmp (base : Reg) : Instr :=
  if base = .r7 then .ret else .jmp base

/-- The TRAP row and the rows of its six service routines (R210, R112). -/
def decodeTrap (v : BitVec 8) : Instr :=
  if v = 0x20#8 then .getc
  else if v = 0x21#8 then .out
  else if v = 0x22#8 then .puts
  else if v = 0x23#8 then .inChar
  else if v = 0x24#8 then .putsp
  else if v = 0x25#8 then .halt
  else .trap v

/-- The instruction a word is: the opcode map of R102, the fields of R103, the mode bits of R106. -/
def decode (ir : Word) : Instr :=
  match (fieldOpcode ir).toNat with
  | 0x0 => .br (ir.getLsbD 11) (ir.getLsbD 10) (ir.getLsbD 9) (fieldOff9 ir)
  | 0x1 =>
    if ir.getLsbD 5 then .addImm (fieldR9 ir) (fieldR6 ir) (fieldImm5 ir)
    else .addReg (fieldR9 ir) (fieldR6 ir) (fieldR0 ir)
  | 0x2 => .ld (fieldR9 ir) (fieldOff9 ir)
  | 0x3 => .st (fieldR9 ir) (fieldOff9 ir)
  | 0x4 => if ir.getLsbD 11 then .jsr (fieldOff11 ir) else .jsrr (fieldR6 ir)
  | 0x5 =>
    if ir.getLsbD 5 then .andImm (fieldR9 ir) (fieldR6 ir) (fieldImm5 ir)
    else .andReg (fieldR9 ir) (fieldR6 ir) (fieldR0 ir)
  | 0x6 => .ldr (fieldR9 ir) (fieldR6 ir) (fieldOff6 ir)
  | 0x7 => .str (fieldR9 ir) (fieldR6 ir) (fieldOff6 ir)
  | 0x8 => .rti
  | 0x9 => .not (fieldR9 ir) (fieldR6 ir)
  | 0xA => .ldi (fieldR9 ir) (fieldOff9 ir)
  | 0xB => .sti (fieldR9 ir) (fieldOff9 ir)
  | 0xC => decodeJmp (fieldR6 ir)
  | 0xD => .res
  | 0xE => .lea (fieldR9 ir) (fieldOff9 ir)
  | _ => decodeTrap (fieldVect8 ir)

/-- The decoder's answer for an instruction whose bits are w, as spec/opcode_table.json numbers them: every
instruction is one 16-bit word (R100, R110), so anything longer is none. -/
def decodeTableWord (nbits w : Nat) : Option Instr :=
  if nbits ≤ 16 ∧ w < 2 ^ nbits then some (decode (BitVec.ofNat 16 w)) else none

/-! ## The encoder -/

/-- A field of n bits put at bits lo+n-1 down to lo of a word (R103). -/
def place {n : Nat} (field : BitVec n) (lo : Nat) : Word := field.setWidth 16 <<< lo

/-- The opcode of an instruction (R102). -/
def opcodeOf : Instr → BitVec 4
  | .br _ _ _ _ => 0x0#4
  | .addReg _ _ _ | .addImm _ _ _ => 0x1#4
  | .ld _ _ => 0x2#4
  | .st _ _ => 0x3#4
  | .jsr _ | .jsrr _ => 0x4#4
  | .andReg _ _ _ | .andImm _ _ _ => 0x5#4
  | .ldr _ _ _ => 0x6#4
  | .str _ _ _ => 0x7#4
  | .rti => 0x8#4
  | .not _ _ => 0x9#4
  | .ldi _ _ => 0xA#4
  | .sti _ _ => 0xB#4
  | .jmp _ | .ret => 0xC#4
  | .res => 0xD#4
  | .lea _ _ => 0xE#4
  | .trap _ | .getc | .out | .puts | .inChar | .putsp | .halt => 0xF#4

/-- Bits 11:0 of an instruction's word by the field table of R103, 0 in every unused bit (R112). -/
def operandBits : Instr → Word
  | .br n z p off9 => place (BitVec.ofBool n) 11 ||| place (BitVec.ofBool z) 10 ||| place (BitVec.ofBool p) 9 ||| place off9 0
  | .addReg dr sr1 sr2 | .andReg dr sr1 sr2 => place dr.toBits 9 ||| place sr1.toBits 6 ||| place sr2.toBits 0
  | .addImm dr sr1 imm5 | .andImm dr sr1 imm5 =>
    place dr.toBits 9 ||| place sr1.toBits 6 ||| place 1#1 5 ||| place imm5 0
  | .not dr sr => place dr.toBits 9 ||| place sr.toBits 6
  | .ld r off9 | .ldi r off9 | .lea r off9 | .st r off9 | .sti r off9 => place r.toBits 9 ||| place off9 0
  | .ldr r base off6 | .str r base off6 => place r.toBits 9 ||| place base.toBits 6 ||| place off6 0
  | .jmp base => place base.toBits 6
  | .ret => place Reg.r7.toBits 6
  | .jsr off11 => place 1#1 11 ||| place off11 0
  | .jsrr base => place base.toBits 6
  | .rti | .res => 0x0000#16
  | .trap v => place v 0
  | .getc => place 0x20#8 0
  | .out => place 0x21#8 0
  | .puts => place 0x22#8 0
  | .inChar => place 0x23#8 0
  | .putsp => place 0x24#8 0
  | .halt => place 0x25#8 0

/-- The word of an instruction. -/
def encode (i : Instr) : Word := place (opcodeOf i) 12 ||| operandBits i

/-- The bits of the word that the instruction's format uses: all but those R107 lists as unused. -/
def usedBits : Instr → Word
  | .addReg _ _ _ | .andReg _ _ _ => 0xFFE7#16
  | .not _ _ => 0xFFC0#16
  | .jmp _ | .ret => 0xF1C0#16
  | .jsrr _ => 0xF9C0#16
  | .rti | .res => 0xF000#16
  | .trap _ | .getc | .out | .puts | .inChar | .putsp | .halt => 0xF0FF#16
  | .addImm _ _ _ | .andImm _ _ _ => 0xFFFF#16
  | .ld _ _ | .ldi _ _ | .lea _ _ | .st _ _ | .sti _ _ => 0xFFFF#16
  | .ldr _ _ _ | .str _ _ _ | .br _ _ _ _ | .jsr _ => 0xFFFF#16

end Sys2Proof
end

