-- ==== Sys2Proof/Config.lean ====
section
/-!
DEFINITION. What the spec fixes for the machine (00_scope.md R6, R11), the parameters it leaves open (R8), and the free values:
constants with no body, of which nothing can be proved but what holds whatever they are.
-/

namespace Sys2Proof

/-- KBSR, the keyboard status address (R6, R11, R74). -/
def KBSR : Word := 0xFE00#16

/-- KBDR, the keyboard data address (R6, R11, R75). -/
def KBDR : Word := 0xFE02#16

/-- START, the initial PC (R6, R11, R271). -/
def START : Word := 0x3000#16

/-- POS, the condition code of a positive result: COND bit 0 (R11, R45). -/
def POS : Word := 0x0001#16

/-- ZRO, the condition code of a zero result: COND bit 1 (R11, R45). -/
def ZRO : Word := 0x0002#16

/-- NEG, the condition code of a negative result: COND bit 2 (R11, R45). -/
def NEG : Word := 0x0004#16

/-- The parameter `undefinedTrapPolicy` of R8: what TRAP does with a vector outside 0x20 to 0x25 (R217, D4). -/
inductive TrapPolicy where
  | abort
  | noop
  deriving DecidableEq, Repr

/-- The value of `undefinedTrapPolicy` at reset: the spec's default (R8). The state carries the parameter, so a
statement about every state is about both policies (log 7). -/
def Config.undefinedTrapPolicy : TrapPolicy := .abort

/-- FREE VALUE: the bytes of the halt notice HALT writes (R8, R216, D9); the spec gives none (log 7). -/
opaque Config.haltNotice : List Byte

/-- FREE VALUE: the bytes of the prompt IN writes (R8, R214, D10); the spec gives none (log 7). -/
opaque Config.inPrompt : List Byte

/-- FREE VALUE: the keyboard's answer to the n-th poll that no supplied answer covers: no key, or a key and its
character (R72, D15, U6; log 2). -/
opaque Config.kbdAnswer : Nat → Option Byte

/-- FREE VALUE: the console's answer to the n-th read that no supplied answer covers: a byte, after however long a wait, or
none, ever (R211, R214, R153, U7; log 3). -/
opaque Config.conAnswer : Nat → Option Byte

end Sys2Proof
end

