-- ==== Sys2Proof/Machine/State.lean ====
section
/-!
DEFINITION. The state of the core as plain data (10_state.md), the reasons a step could stop, and the state after reset
(10_state.md R53, 70_reset_and_hazards.md R270).
-/

namespace Sys2Proof.Machine

/-- The general registers R0 to R7 (R40, R41). PC and COND, the other two entries of the register file, are fields of
`State`. -/
structure Regs where
  r0 : Word
  r1 : Word
  r2 : Word
  r3 : Word
  r4 : Word
  r5 : Word
  r6 : Word
  r7 : Word
  deriving DecidableEq, Repr

/-- The mark of a halt: by TRAP HALT, or by the host's cancellation (R49, R243). -/
inductive HaltedBy where
  | haltTrap
  | cancel
  deriving DecidableEq, Repr

/-- The reason of a fatal abort (R240). -/
inductive AbortReason where
  | reservedOpcode
  | rtiOpcode
  | undefinedTrap (v : BitVec 8)
  deriving DecidableEq, Repr

/-- The run state (R49, R140), visible on the `run_state` port. -/
inductive RunState where
  | running
  | halted (haltedBy : HaltedBy)
  | aborted (reason : AbortReason)
  deriving DecidableEq, Repr

/-- The two routines that wait on `con_read` (R50). -/
inductive ConsoleRead where
  | getc
  | inChar
  deriving DecidableEq, Repr

/-- The two routines that write a string from memory (R213, R215). -/
inductive StringKind where
  | puts
  | putsp
  deriving DecidableEq, Repr

/-- Whether the last transition completed its instruction. Every step that completes is ONE transition (R152, R279); the other two
constructors are the steps that never complete, the hangs of R153. From them no further transition changes anything: only an event of
the host ends a console wait, and nothing ends the string. -/
inductive Activity where
  /-- At a step boundary: the next transition fetches an instruction. -/
  | idle
  /-- The console wait: the byte GETC or IN waits for on `con_read` does not come (R50; log 3). -/
  | consoleWait (who : ConsoleRead)
  /-- Inside the loop of PUTS or PUTSP over the string at `addr`, when no cell of memory holds 0x0000: the step of that TRAP
  never completes (R218; log 8). `State.observed` says what it writes. -/
  | stringLoop (kind : StringKind) (addr : Word)
  deriving DecidableEq, Repr

/-- One event on a port (R7, R154). -/
inductive PortEvent where
  | kbdPoll (ready : Bool)
  | kbdConsume (c : Byte)
  | conRead (b : Byte)
  | conWrite (b : Byte)
  | conFlush
  deriving DecidableEq, Repr

/-- The three parameters the model takes as an argument (R8). No step changes them. -/
structure Params where
  undefinedTrapPolicy : TrapPolicy
  haltNotice : List Byte
  inPrompt : List Byte
  deriving DecidableEq, Repr

/-- The MODEL's own fields: what the environment will answer on the ports (R7, R152). A statement about every state is about every
environment. -/
structure Env where
  /-- The keyboard's answers to the next polls, oldest first: no key, or a key and its character (R72; log 2). -/
  kbdIn : List (Option Byte)
  /-- How many polls were answered by the free value `Config.kbdAnswer` (log 2). -/
  kbdDraws : Nat
  /-- The console's answers to the next reads, one for each, oldest first: a byte, after however long a wait, or none, ever (R211,
  R214, R153; log 3). -/
  conIn : List (Option Byte)
  /-- How many reads were answered by the free value `Config.conAnswer` (log 3). -/
  conDraws : Nat
  /-- After how many more transitions the host's `cancel` event arrives (0: during the next one), if it sends one
  (R243, U11; log 4). -/
  cancelIn : Option Nat
  deriving DecidableEq, Repr

/-- The state of the core. -/
structure State where
  /-- R0 to R7 (R41). -/
  regs : Regs
  /-- The program counter, a word address (R44). -/
  pc : Word
  /-- The condition register COND (R45). -/
  cond : Word
  /-- The memory of 65,536 words (R70), KBSR and KBDR among them (R74, R75): word a is held as its low byte under key 2a
  and its high byte under key 2a + 1 (log 1); keys strictly rising, no zero byte listed (`Memory.wf`). -/
  mem : List Host.Cell
  /-- The run state (R49). -/
  run : RunState
  /-- The console wait (R50), or an endless string routine (R218). -/
  activity : Activity
  /-- `cancel_pending` (R51, R243). -/
  cancelPending : Bool
  /-- The instruction word fetched in the current step (R10, R141); the aborted state keeps it (R240; log 5). -/
  ir : Word
  /-- The port events so far, oldest first (R154); of a string that never ends, those before it (`State.observed`). -/
  events : List PortEvent
  /-- The parameters of R8. -/
  params : Params
  /-- The environment's answers (the model's own; logs 2, 3, 4). -/
  env : Env
  deriving DecidableEq, Repr

/-- Why the machine could stop with a fault. There is NO such reason: arithmetic, memory accesses and fetches never fault and
no encoding is illegal beside the two that abort (R242), and an abort is a next state whose run state says so
(R240). -/
inductive Fault where
  deriving DecidableEq, Repr

/-- Why an instruction has no meaning. -/
inductive Refusal where
  /-- The form of the host's interface: an arm of `exec` that is not modelled yet would answer it. No arm does. Safe. -/
  | notModelled (mnemonic : String)
  deriving DecidableEq, Repr

/-- The canonical form of a memory from key `lo` on: keys strictly rising, below 131,072 (two byte keys for each of the
65,536 words), and no entry equal to the 0 an unlisted key reads as. -/
def Memory.wfFrom : Nat → List Host.Cell → Bool
  | _, [] => true
  | lo, (k, v) :: m => decide (lo ≤ k) && decide (k < 131072) && (v != 0#8) && Memory.wfFrom (k + 1) m

/-- The canonical form of the memory. -/
def Memory.wf (m : List Host.Cell) : Bool := Memory.wfFrom 0 m

/-- The registers at reset: "zero-initialized" (R53). -/
def Regs.zero : Regs := ⟨0#16, 0#16, 0#16, 0#16, 0#16, 0#16, 0#16, 0#16⟩

/-- The machine right after reset (R53, R270, R271), before any boot image is loaded. `ir`, `params` and `env` follow
logs 5, 7 and 2 to 4. -/
def State.reset : State where
  regs := Regs.zero
  pc := START
  cond := ZRO
  mem := []
  run := .running
  activity := .idle
  cancelPending := false
  ir := 0x0000#16
  events := []
  params :=
    { undefinedTrapPolicy := Config.undefinedTrapPolicy
      haltNotice := Config.haltNotice
      inPrompt := Config.inPrompt }
  env := { kbdIn := [], kbdDraws := 0, conIn := [], conDraws := 0, cancelIn := none }

end Sys2Proof.Machine
end

