-- ==== Sys2Proof/Machine/Operands.lean ====
section
/-!
DEFINITION. Operand assembly (30_encoding.md R104, 40_execution_cycle.md R145), the bytes of a word (20_memory.md R78), the register
file's read and write (10_state.md R41), and the effective addresses.
-/

namespace Sys2Proof.Machine

/-- sext_N: an N-bit two's-complement field sign-extended to 16 bits (R145). -/
def sext {n : Nat} (v : BitVec n) : Word := v.signExtend 16

/-- zext_8: a byte zero-extended to 16 bits (R145). -/
def zext8 (b : Byte) : Word := b.zeroExtend 16

/-- w[7:0] (R78). -/
def lowByte (w : Word) : Byte := w.extractLsb' 0 8

/-- w[15:8] (R78). -/
def highByte (w : Word) : Byte := w.extractLsb' 8 8

/-- The word whose high byte is hi and whose low byte is lo (R78). -/
def joinBytes (hi lo : Byte) : Word := hi ++ lo

/-- x[r] over the register file (R41). -/
def Regs.get (x : Regs) : Reg → Word
  | .r0 => x.r0
  | .r1 => x.r1
  | .r2 => x.r2
  | .r3 => x.r3
  | .r4 => x.r4
  | .r5 => x.r5
  | .r6 => x.r6
  | .r7 => x.r7

/-- x[r] <- v over the register file (R41): no register is hard-wired. -/
def Regs.set (x : Regs) (r : Reg) (v : Word) : Regs :=
  match r with
  | .r0 => { x with r0 := v }
  | .r1 => { x with r1 := v }
  | .r2 => { x with r2 := v }
  | .r3 => { x with r3 := v }
  | .r4 => { x with r4 := v }
  | .r5 => { x with r5 := v }
  | .r6 => { x with r6 := v }
  | .r7 => { x with r7 := v }

/-- x[r]: read general register r (R10, R41). -/
def State.reg (s : State) (r : Reg) : Word := s.regs.get r

/-- The PC-relative address PC' + off, modulo 2^16 (R104, R71); inside a handler `pc` is PC' (R143). -/
def State.pcRel {n : Nat} (s : State) (off : BitVec n) : Word := s.pc + sext off

/-- The base plus offset address BaseR + off, modulo 2^16 (R104, R71). -/
def State.baseRel {n : Nat} (s : State) (base : Reg) (off : BitVec n) : Word := s.reg base + sext off

end Sys2Proof.Machine
end

