-- ==== Sys2Proof/Machine/Flags.lean ====
section
/-!
DEFINITION. The condition code of a value (40_execution_cycle.md R147) and the branch test over it (44_control.md R200).
-/

namespace Sys2Proof.Machine

/-- The condition code `setcc` derives from a register's value (R147): ZRO for zero, else NEG where bit 15 is 1, else POS. -/
def condOf (v : Word) : Word :=
  if v = 0x0000#16 then ZRO else if v.getLsbD 15 then NEG else POS

/-- The test of BR (R200): an asserted condition bit matches the current COND. -/
def branchTaken (n z p : Bool) (cond : Word) : Bool :=
  (n && cond == NEG) || (z && cond == ZRO) || (p && cond == POS)

end Sys2Proof.Machine
end

