-- ==== Sys2Proof/Machine/Ops.lean ====
section
/-!
DEFINITION. The named operations over registers, memory, ports and run state that the meanings and the step are written with
(00_scope.md R10): each update of a field, the memory cells, the keyboard overlay, the console ports, the fatal abort, the halt, the
link of a call or trap, the fetch, and the arrival of a cancellation.
-/

namespace Sys2Proof.Machine

/-! ## One update per field -/

/-- Replace the register file. -/
def State.setRegs (s : State) (x : Regs) : State := { s with regs := x }

/-- pc <- target (R44). -/
def State.setPc (s : State) (target : Word) : State := { s with pc := target }

/-- cond <- v (R45). -/
def State.setCond (s : State) (v : Word) : State := { s with cond := v }

/-- Replace the memory. -/
def State.setMem (s : State) (m : List Host.Cell) : State := { s with mem := m }

/-- run <- r (R49). -/
def State.setRun (s : State) (r : RunState) : State := { s with run := r }

/-- Enter or leave the console wait or a string loop (R50). -/
def State.setActivity (s : State) (a : Activity) : State := { s with activity := a }

/-- Set or clear `cancel_pending` (R243). -/
def State.setCancelPending (s : State) (b : Bool) : State := { s with cancelPending := b }

/-- ir <- w (R141). -/
def State.setIr (s : State) (w : Word) : State := { s with ir := w }

/-- Append port events, in order (R154). -/
def State.addEvents (s : State) (es : List PortEvent) : State := { s with events := s.events ++ es }

/-- Replace what the environment will still answer. -/
def State.setEnv (s : State) (e : Env) : State := { s with env := e }

/-- x[r] <- v (R10, R41). -/
def State.setReg (s : State) (r : Reg) (v : Word) : State := s.setRegs (s.regs.set r v)

/-- setcc(r): COND from the current value of register r (R147, R148). -/
def State.setcc (s : State) (r : Reg) : State := s.setCond (condOf (s.reg r))

/-- Write a destination register, then set the condition code from it: the end of every handler that sets flags (R46). -/
def State.writeDest (s : State) (r : Reg) (v : Word) : State := (s.setReg r v).setcc r

/-! ## Memory cells -/

/-- The byte under a key; an unlisted key reads 0, the reset content of every cell (R53). -/
def byteAt (m : List Host.Cell) (k : Nat) : Byte :=
  match m with
  | [] => 0#8
  | (k', v) :: m => if k' = k then v else byteAt m k

/-- Remove a key. -/
def eraseByte (k : Nat) (m : List Host.Cell) : List Host.Cell :=
  match m with
  | [] => []
  | (k', v) :: m => if k' = k then eraseByte k m else (k', v) :: eraseByte k m

/-- Insert a key before the first larger one. -/
def insertByte (k : Nat) (v : Byte) (m : List Host.Cell) : List Host.Cell :=
  match m with
  | [] => [(k, v)]
  | (k', v') :: m => if k < k' then (k, v) :: (k', v') :: m else (k', v') :: insertByte k v m

/-- Set the byte under a key: a zero byte, which an unlisted key reads as, is not listed. -/
def setByte (k : Nat) (v : Byte) (m : List Host.Cell) : List Host.Cell :=
  if v = 0#8 then eraseByte k m else insertByte k v (eraseByte k m)

/-- The word of cell a: low byte under 2a, high byte under 2a + 1 (log 1). -/
def wordAt (m : List Host.Cell) (a : Word) : Word :=
  joinBytes (byteAt m (2 * a.toNat + 1)) (byteAt m (2 * a.toNat))

/-- Set the word of cell a. -/
def setWord (a v : Word) (m : List Host.Cell) : List Host.Cell :=
  setByte (2 * a.toNat + 1) (highByte v) (setByte (2 * a.toNat) (lowByte v) m)

/-- RawRead(a): the stored content, no overlay, no side effect (R77). -/
def State.rawRead (s : State) (a : Word) : Word := wordAt s.mem a

/-- MemWrite(a, v): v is stored at every address, KBSR and KBDR among them, with no other effect (R73). -/
def State.memWrite (s : State) (a v : Word) : State := s.setMem (setWord a v s.mem)

/-! ## The keyboard overlay -/

/-- What the keyboard answers to the next poll: no key, or a key with its character: the first supplied answer, else
the free value of the draw counter (R72, D15; log 2). -/
def State.kbdAnswer (s : State) : Option Byte :=
  match s.env.kbdIn with
  | a :: _ => a
  | [] => Config.kbdAnswer s.env.kbdDraws

/-- The environment after that answer was taken. -/
def State.kbdTaken (s : State) : Env :=
  match s.env.kbdIn with
  | _ :: rest => { s.env with kbdIn := rest }
  | [] => { s.env with kbdDraws := s.env.kbdDraws + 1 }

/-- The poll of a KBSR read (R72): a pending key sets KBSR to 0x8000 and is consumed into KBDR; no key clears KBSR. -/
def State.pollKeyboard (s : State) : State :=
  match s.kbdAnswer with
  | some c =>
    (((s.setEnv s.kbdTaken).addEvents [.kbdPoll true, .kbdConsume c]).memWrite KBSR 0x8000#16).memWrite KBDR (zext8 c)
  | none => ((s.setEnv s.kbdTaken).addEvents [.kbdPoll false]).memWrite KBSR 0x0000#16

/-- The state after the read side of MemRead(a): a read of KBSR polls, any other read changes nothing (R72, R80). -/
def State.afterRead (s : State) (a : Word) : State :=
  if a = KBSR then s.pollKeyboard else s

/-- The value of MemRead(a): the cell's content after the poll a KBSR read makes (R72). -/
def State.memRead (s : State) (a : Word) : Word := (s.afterRead a).rawRead a

/-! ## The console ports -/

/-- ConWrite of each byte in turn (R7, R10). -/
def State.conWrite (s : State) (bs : List Byte) : State := s.addEvents (bs.map .conWrite)

/-- ConFlush(): an event in the output sequence, with no other effect (R7, D11). -/
def State.conFlush (s : State) : State := s.addEvents [.conFlush]

/-- What the console answers to the next read: a byte, after however long a wait, or none, ever: the first supplied answer, else
the free value of the draw counter (R211, R153, U7; log 3). -/
def State.conAnswer (s : State) : Option Byte :=
  match s.env.conIn with
  | a :: _ => a
  | [] => Config.conAnswer s.env.conDraws

/-- The environment after that answer was taken. -/
def State.conTaken (s : State) : Env :=
  match s.env.conIn with
  | _ :: rest => { s.env with conIn := rest }
  | [] => { s.env with conDraws := s.env.conDraws + 1 }

/-- What GETC (R211) or IN (R214) does once the byte b has arrived: IN echoes it and flushes; both put it, zero-extended,
into R0 and set the flags from R0. -/
def State.finishRead (s : State) (who : ConsoleRead) (b : Byte) : State :=
  match who with
  | .getc => ((s.addEvents [.conRead b]).writeDest .r0 (zext8 b)).setActivity .idle
  | .inChar => ((((s.addEvents [.conRead b]).conWrite [b]).conFlush).writeDest .r0 (zext8 b)).setActivity .idle

/-- ConRead() of GETC or IN: the answer is an input of the step (R152), so a byte, however long it took, ends the routine within it;
without one the step does not complete and the core is left in the console wait, in which no register and no memory cell changes
(R50, R153). -/
def State.conReadFor (s : State) (who : ConsoleRead) : State :=
  match s.conAnswer with
  | some b => (s.setEnv s.conTaken).finishRead who b
  | none => (s.setEnv s.conTaken).setActivity (.consoleWait who)

/-! ## Strings in memory -/

/-- The bytes one word of a string writes: PUTS its low byte (R213); PUTSP its low byte, then its high byte if that is not
zero (R215). -/
def stringBytes (kind : StringKind) (w : Word) : List Byte :=
  match kind with
  | .puts => [lowByte w]
  | .putsp => if highByte w = 0x00#8 then [lowByte w] else [lowByte w, highByte w]

/-- The words from address a up to, not including, the first zero word among the next `fuel` words (addresses wrap); none where those
hold no zero word (R213, R215). -/
def stringWords (m : List Host.Cell) (a : Word) (fuel : Nat) : Option (List Word) :=
  match fuel with
  | 0 => none
  | fuel + 1 =>
    let w := wordAt m a
    if w = 0x0000#16 then some [] else (stringWords m (a + 1#16) fuel).map (w :: ·)

/-- PUTS or PUTSP from R0: with a zero word anywhere in memory the routine ends within 65,536 reads and flushes; with none it never
ends (R213, R215, R218). -/
def State.writeString (s : State) (kind : StringKind) : State :=
  match stringWords s.mem (s.reg .r0) 65536 with
  | some ws => (s.conWrite (ws.flatMap (stringBytes kind))).conFlush
  | none => s.setActivity (.stringLoop kind (s.reg .r0))

/-- The bytes the first n turns of the loop of PUTS or PUTSP write from address a on, addresses wrapping, where it meets no zero
word (R213, R215). -/
def stringOutput (m : List Host.Cell) (kind : StringKind) (a : Word) (n : Nat) : List Byte :=
  (List.range n).flatMap fun k => stringBytes kind (wordAt m (a + BitVec.ofNat 16 k))

/-- What a run that has come to s has shown on the ports (R154): the events, and, inside a string that never ends, the bytes of
the first n turns of its loop, for any n (R218; log 8). -/
def State.observed (s : State) (n : Nat) : List PortEvent :=
  match s.activity with
  | .stringLoop kind a => s.events ++ (stringOutput s.mem kind a n).map .conWrite
  | _ => s.events

/-! ## Ends of a run -/

/-- raise Abort(reason): the run ends in Aborted(reason) and nothing else changes (R240, R241). The fetched word stays in
`ir`. This is the one way an invalid program is stopped. -/
def State.abort (s : State) (reason : AbortReason) : State := s.setRun (.aborted reason)

/-- The code of an abort reason (R240, D14). -/
def AbortReason.code : AbortReason → Nat
  | .reservedOpcode => 0x0D
  | .rtiOpcode => 0x08
  | .undefinedTrap v => 0x100 + v.toNat

/-- halt(): the run ends in Halted with the mark HaltTrap (R150, R243). -/
def State.haltByTrap (s : State) : State := s.setRun (.halted .haltTrap)

/-- The effect of a cancellation: the run ends in Halted with the mark Cancel; a console wait ends (R243). -/
def State.haltByCancel (s : State) : State := (s.setRun (.halted .cancel)).setActivity .idle

/-! ## Calls, traps, fetch, cancellation -/

/-- x[7] <- pc: the link a call or a TRAP saves, without setcc (R203, R204, R210, R245). -/
def State.link (s : State) : State := s.setReg .r7 s.pc

/-- The fetch and the PC increment of a step: ir <- MemRead(pc), pc <- pc + 1 (R141, R142, R143). -/
def State.fetch (s : State) : State :=
  ((s.afterRead s.pc).setIr (s.memRead s.pc)).setPc (s.pc + 1#16)

/-- A `cancel` event of the host, which it may send at any time: it sets `cancel_pending`, and ends a console wait at once (R243). -/
def hostCancel (s : State) : State :=
  match s.run, s.activity with
  | .running, .consoleWait _ => (s.setCancelPending true).haltByCancel
  | _, _ => s.setCancelPending true

/-- A byte with which the console does answer a read it had left unanswered: the wait ends, and with it the routine (R50). Where
nothing waits there is no read to answer. -/
def hostByte (s : State) (b : Byte) : State :=
  match s.run, s.activity with
  | .running, .consoleWait who => s.finishRead who b
  | _, _ => s

/-- The arrival of the host's cancellation during a transition, as the environment has it (R243, U11; log 4). -/
def State.cancelArrives (s : State) : State :=
  match s.env.cancelIn with
  | none => s
  | some 0 => hostCancel (s.setEnv { s.env with cancelIn := none })
  | some (k + 1) => s.setEnv { s.env with cancelIn := some k }

/-- A transition's outcome, with the cancellation that arrives during it. -/
def afterTransition (o : Host.Outcome State Fault Refusal) : Host.Outcome State Fault Refusal :=
  match o with
  | .next s => .next s.cancelArrives
  | .fault r => .fault r
  | .refused r => .refused r

end Sys2Proof.Machine
end

