-- ==== Sys2Proof/Machine/Control.lean ====
section
/-!
DEFINITION. Control transfer: BR, JMP, RET, JSR, JSRR (44_control.md). None changes COND (10_state.md R47).
-/

namespace Sys2Proof.Machine

/-- pc <- x[base] (R201). -/
def State.jumpTo (s : State) (base : Reg) : State := s.setPc (s.reg base)

/-- BR n z p, PCoffset9 (R200). -/
def execBr (n z p : Bool) (off9 : BitVec 9) (s : State) : Host.Outcome State Fault Refusal :=
  .next (if branchTaken n z p s.cond then s.setPc (s.pcRel off9) else s)

/-- JMP BaseR (R201). -/
def execJmp (base : Reg) (s : State) : Host.Outcome State Fault Refusal :=
  .next (s.jumpTo base)

/-- RET: JMP with BaseR = R7 (R202). -/
def execRet (s : State) : Host.Outcome State Fault Refusal :=
  .next (s.jumpTo .r7)

/-- JSR PCoffset11: the link is saved first (R203). -/
def execJsr (off11 : BitVec 11) (s : State) : Host.Outcome State Fault Refusal :=
  .next (s.link.setPc (s.link.pcRel off11))

/-- JSRR BaseR: BaseR is read after the R7 write, so JSRR R7 falls through (R204). -/
def execJsrr (base : Reg) (s : State) : Host.Outcome State Fault Refusal :=
  .next (s.link.jumpTo base)

end Sys2Proof.Machine
end

