-- ==== Sys2Proof/Machine/Loads.lean ====
section
/-!
DEFINITION. The loads and the address computation: LD, LDI, LDR, LEA (42_loads.md).
-/

namespace Sys2Proof.Machine

/-- x[dr] <- MemRead(ea), then setcc(dr): the end of every load (R180, R181, R182). -/
def State.loadFrom (s : State) (dr : Reg) (ea : Word) : State :=
  (s.afterRead ea).writeDest dr (s.memRead ea)

/-- LD DR, PCoffset9 (R180). -/
def execLd (dr : Reg) (off9 : BitVec 9) (s : State) : Host.Outcome State Fault Refusal :=
  .next (s.loadFrom dr (s.pcRel off9))

/-- LDI DR, PCoffset9: the first read is the pointer, the second the data (R181). -/
def execLdi (dr : Reg) (off9 : BitVec 9) (s : State) : Host.Outcome State Fault Refusal :=
  .next ((s.afterRead (s.pcRel off9)).loadFrom dr (s.memRead (s.pcRel off9)))

/-- LDR DR, BaseR, offset6 (R182). -/
def execLdr (dr base : Reg) (off6 : BitVec 6) (s : State) : Host.Outcome State Fault Refusal :=
  .next (s.loadFrom dr (s.baseRel base off6))

/-- LEA DR, PCoffset9: no memory access; COND is set from the address (R183). -/
def execLea (dr : Reg) (off9 : BitVec 9) (s : State) : Host.Outcome State Fault Refusal :=
  .next (s.writeDest dr (s.pcRel off9))

end Sys2Proof.Machine
end

