-- ==== Sys2Proof/Machine/Operate.lean ====
section
/-!
DEFINITION. The operate instructions: ADD, AND, NOT (41_operate.md).
-/

namespace Sys2Proof.Machine

/-- ADD DR, SR1, SR2 (R170). -/
def execAddReg (dr sr1 sr2 : Reg) (s : State) : Host.Outcome State Fault Refusal :=
  .next (s.writeDest dr (s.reg sr1 + s.reg sr2))

/-- ADD DR, SR1, #imm5 (R170). -/
def execAddImm (dr sr1 : Reg) (imm5 : BitVec 5) (s : State) : Host.Outcome State Fault Refusal :=
  .next (s.writeDest dr (s.reg sr1 + sext imm5))

/-- AND DR, SR1, SR2 (R171). -/
def execAndReg (dr sr1 sr2 : Reg) (s : State) : Host.Outcome State Fault Refusal :=
  .next (s.writeDest dr (s.reg sr1 &&& s.reg sr2))

/-- AND DR, SR1, #imm5 (R171). -/
def execAndImm (dr sr1 : Reg) (imm5 : BitVec 5) (s : State) : Host.Outcome State Fault Refusal :=
  .next (s.writeDest dr (s.reg sr1 &&& sext imm5))

/-- NOT DR, SR (R172). -/
def execNot (dr sr : Reg) (s : State) : Host.Outcome State Fault Refusal :=
  .next (s.writeDest dr (~~~(s.reg sr)))

end Sys2Proof.Machine
end

