-- ==== Sys2Proof/Machine/Reserved.lean ====
section
/-!
DEFINITION. The two aborting opcodes: RES and RTI (46_reserved.md). The abort is the instruction's own effect: a next state whose run
state is Aborted (60_exceptions.md R240, R241).
-/

namespace Sys2Proof.Machine

/-- RES: raise Abort(ReservedOpcode) (R230). -/
def execRes (s : State) : Host.Outcome State Fault Refusal :=
  .next (s.abort .reservedOpcode)

/-- RTI: raise Abort(RtiOpcode); there is nothing to return from (R231). -/
def execRti (s : State) : Host.Outcome State Fault Refusal :=
  .next (s.abort .rtiOpcode)

end Sys2Proof.Machine
end

