-- ==== Sys2Proof/Machine/Stores.lean ====
section
/-!
DEFINITION. The stores: ST, STI, STR (43_stores.md). No store changes COND (10_state.md R47).
-/

namespace Sys2Proof.Machine

/-- ST SR, PCoffset9 (R190). -/
def execSt (sr : Reg) (off9 : BitVec 9) (s : State) : Host.Outcome State Fault Refusal :=
  .next (s.memWrite (s.pcRel off9) (s.reg sr))

/-- STI SR, PCoffset9: the pointer is read through the overlay, then the register is written there (R191). -/
def execSti (sr : Reg) (off9 : BitVec 9) (s : State) : Host.Outcome State Fault Refusal :=
  .next ((s.afterRead (s.pcRel off9)).memWrite (s.memRead (s.pcRel off9)) (s.reg sr))

/-- STR SR, BaseR, offset6 (R192). -/
def execStr (sr base : Reg) (off6 : BitVec 6) (s : State) : Host.Outcome State Fault Refusal :=
  .next (s.memWrite (s.baseRel base off6) (s.reg sr))

end Sys2Proof.Machine
end

