-- ==== Sys2Proof/Machine/Trap.lean ====
section
/-!
DEFINITION. TRAP and the six trap service routines (45_trap.md). Every TRAP first saves PC' in R7 without setcc (R210, R245); the
routine then runs within the same step (R220).
-/

namespace Sys2Proof.Machine

/-! ## The routines, after the link -/

/-- GETC (R211). -/
def State.getcRoutine (s : State) : State := s.conReadFor .getc

/-- OUT (R212): the low byte of R0, then a flush. -/
def State.outRoutine (s : State) : State := (s.conWrite [lowByte (s.reg .r0)]).conFlush

/-- PUTS (R213). -/
def State.putsRoutine (s : State) : State := s.writeString .puts

/-- IN (R214): the prompt, then the read. -/
def State.inRoutine (s : State) : State := (s.conWrite s.params.inPrompt).conReadFor .inChar

/-- PUTSP (R215). -/
def State.putspRoutine (s : State) : State := s.writeString .putsp

/-- HALT (R216): the notice, a flush, and the end of the run. -/
def State.haltRoutine (s : State) : State := ((s.conWrite s.params.haltNotice).conFlush).haltByTrap

/-- A vector outside 0x20 to 0x25 (R217): the parameter `undefinedTrapPolicy` decides. -/
def State.undefinedTrap (s : State) (v : BitVec 8) : State :=
  match s.params.undefinedTrapPolicy with
  | .abort => s.abort (.undefinedTrap v)
  | .noop => s

/-- The Trap Dispatcher (R210): the routine a vector selects. -/
def State.dispatchTrap (s : State) (v : BitVec 8) : State :=
  if v = 0x20#8 then s.getcRoutine
  else if v = 0x21#8 then s.outRoutine
  else if v = 0x22#8 then s.putsRoutine
  else if v = 0x23#8 then s.inRoutine
  else if v = 0x24#8 then s.putspRoutine
  else if v = 0x25#8 then s.haltRoutine
  else s.undefinedTrap v

/-! ## The meanings -/

/-- TRAP trapvect8, for every vector (R210, R217). -/
def execTrap (v : BitVec 8) (s : State) : Host.Outcome State Fault Refusal :=
  .next (s.link.dispatchTrap v)

/-- GETC: TRAP x20 (R211). -/
def execGetc (s : State) : Host.Outcome State Fault Refusal :=
  .next s.link.getcRoutine

/-- OUT: TRAP x21 (R212). -/
def execOut (s : State) : Host.Outcome State Fault Refusal :=
  .next s.link.outRoutine

/-- PUTS: TRAP x22 (R213). -/
def execPuts (s : State) : Host.Outcome State Fault Refusal :=
  .next s.link.putsRoutine

/-- IN: TRAP x23 (R214). -/
def execInChar (s : State) : Host.Outcome State Fault Refusal :=
  .next s.link.inRoutine

/-- PUTSP: TRAP x24 (R215). -/
def execPutsp (s : State) : Host.Outcome State Fault Refusal :=
  .next s.link.putspRoutine

/-- HALT: TRAP x25 (R216). -/
def execHalt (s : State) : Host.Outcome State Fault Refusal :=
  .next s.link.haltRoutine

end Sys2Proof.Machine
end

