-- ==== Sys2Proof/Machine/Step.lean ====
section
/-!
DEFINITION. One transition of the core (40_execution_cycle.md R140, R141, R152): one instruction, with the answers of its ports as
inputs. After the end of a run (R150, R151) and in a step that never completes (R153) there is no transition: `step`, which has to answer,
answers the same state.
-/

namespace Sys2Proof.Machine

/-- Fetch, increment, decode, execute (R141). -/
def runInstruction (s : State) : Host.Outcome State Fault Refusal :=
  exec (decode s.fetch.ir) s.fetch

/-- One transition: one instruction (R141, R152, R279). From Halted and Aborted nothing changes any more (R150, R151), nor in a console
wait that no byte ends, nor in a string without end (R153; logs 3, 8, 13); a pending cancellation is taken before the fetch and in a
console wait, and nowhere else (R243, R244). -/
def step (s : State) : Host.Outcome State Fault Refusal :=
  match s.run with
  | .halted _ => .next s
  | .aborted _ => .next s
  | .running =>
    match s.activity with
    | .idle => if s.cancelPending then .next s.haltByCancel else afterTransition (runInstruction s)
    | .consoleWait _ => if s.cancelPending then .next s.haltByCancel else .next s
    | .stringLoop _ _ => .next s

/-- Where the fetch finds a word that was put there: at `pc`, but a fetch at KBSR polls the keyboard instead of
returning the cell (R142), so then at START (log 12). -/
def State.fetchPlace (s : State) : Word := if s.pc = KBSR then START else s.pc

/-- s with the instruction w stored where the next step fetches it, running and at a step boundary, so that the very next step runs
it (log 12). -/
def State.withFetchWord (s : State) (nbits w : Nat) : State :=
  ((((s.setRun .running).setActivity .idle).setCancelPending false).setPc s.fetchPlace).memWrite s.fetchPlace
    (BitVec.ofNat 16 (w % 2 ^ nbits))

end Sys2Proof.Machine
end

