-- ==== Sys2Proof/Machine/Boot.lean ====
section
/-!
DEFINITION. The boot input of the core (70_reset_and_hazards.md R272): the memory the host hands over before the first step, built by
the loader contract. Reset sets the PC to 0x3000 whatever the image's origin is (R271).
-/

namespace Sys2Proof.Machine

/-- Write the words of an image from word number a on: a trailing odd byte is ignored (D16), and words past the end of
memory are dropped, never wrapped; the file is big-endian (R272). -/
def loadWords (a : Nat) (bytes : List Byte) (m : List Host.Cell) : List Host.Cell :=
  match bytes with
  | hi :: lo :: rest =>
    if a < 65536 then loadWords (a + 1) rest (setWord (BitVec.ofNat 16 a) (joinBytes hi lo) m) else m
  | _ => m

/-- LoadImage(mem, bytes): the first word is the origin; a file of fewer than 2 bytes loads nothing (R272, D16). -/
def loadImage (m : List Host.Cell) (bytes : List Byte) : List Host.Cell :=
  match bytes with
  | hi :: lo :: rest => loadWords (joinBytes hi lo).toNat rest m
  | _ => m

/-- The state before the first step: reset, then the images in argument order, later ones over earlier ones (R270, R272). -/
def boot (images : List (List Byte)) : State :=
  State.reset.setMem (images.foldl loadImage State.reset.mem)

end Sys2Proof.Machine
end

