-- ==== Sys2Proof/Safety.lean ====
section
/-!
DEFINITION. The terms the claims are stated in: the invariant of the machine, what a state may be said to share with an earlier one
(frames), the effect of one read through the keyboard overlay, and the spec's tables of who writes what. None of them is used by
the machine.
-/

namespace Sys2Proof.Safety

open Sys2Proof.Machine

/-- COND holds exactly one of its three legal values (R45). -/
def CondLegal (c : Word) : Prop := c = POS ∨ c = ZRO ∨ c = NEG

/-- The condition code c is the one of the value v read as a two's-complement number (R45, R147). -/
def FlagsOf (v c : Word) : Prop :=
  (v.toInt = 0 → c = ZRO) ∧ (v.toInt < 0 → c = NEG) ∧ (0 < v.toInt → c = POS)

/-- The invariant every step keeps: memory in canonical form, COND legal, nothing in progress once the run has ended,
R7 = PC' in a trap routine that has not completed (R50, R243), and a string routine without end only over a memory with no
zero word (R218). -/
structure Inv (s : State) : Prop where
  memory : Memory.wf s.mem = true
  cond : CondLegal s.cond
  ended : s.run ≠ .running → s.activity = .idle
  link : s.activity ≠ .idle → s.reg .r7 = s.pc
  endless : ∀ kind a, s.activity = .stringLoop kind a → ∀ b, s.rawRead b ≠ 0x0000#16

/-- A running core at a step boundary with no cancellation pending: the next transition executes an instruction (R141). -/
def AtBoundary (s : State) : Prop :=
  s.run = .running ∧ s.activity = .idle ∧ s.cancelPending = false

/-! ## Frames: what the state t shares with the earlier state s -/

/-- Every general register outside the list is unchanged. -/
def SameRegsBut (ds : List Reg) (s t : State) : Prop := ∀ r, r ∉ ds → t.reg r = s.reg r

/-- Every memory cell is unchanged. -/
def SameMem (s t : State) : Prop := ∀ a, t.rawRead a = s.rawRead a

/-- No port was used. -/
def SamePorts (s t : State) : Prop := t.events = s.events ∧ t.env = s.env

/-- The run state, the pending cancellation, the fetched word and the parameters are unchanged. -/
def SameControl (s t : State) : Prop :=
  t.run = s.run ∧ t.cancelPending = s.cancelPending ∧ t.ir = s.ir ∧ t.params = s.params

/-- As `SameControl`, and what the core is in the middle of. -/
def SameRest (s t : State) : Prop := SameControl s t ∧ t.activity = s.activity

/-- Memory and ports after one poll of the keyboard (R72): a pending key sets KBSR and fills KBDR, none clears KBSR; no
other cell changes, and the poll is the port's event. -/
def PollEffect (s t : State) : Prop :=
  match s.kbdAnswer with
  | some c =>
    t.rawRead KBSR = 0x8000#16 ∧ t.rawRead KBDR = zext8 c ∧
      (∀ a, a ≠ KBSR → a ≠ KBDR → t.rawRead a = s.rawRead a) ∧
      t.events = s.events ++ [.kbdPoll true, .kbdConsume c] ∧ t.env = s.kbdTaken
  | none =>
    t.rawRead KBSR = 0x0000#16 ∧ (∀ a, a ≠ KBSR → t.rawRead a = s.rawRead a) ∧
      t.events = s.events ++ [.kbdPoll false] ∧ t.env = s.kbdTaken

/-- Memory and ports after one MemRead(a): a poll at KBSR, nothing anywhere else (R72, R80). -/
def ReadEffect (a : Word) (s t : State) : Prop :=
  if a = KBSR then PollEffect s t else SameMem s t ∧ SamePorts s t

/-! ## The spec's tables -/

/-- A TRAP vector whose routine reads the console: GETC and IN (R219). -/
def isReadVector (v : BitVec 8) : Bool := v == 0x20#8 || v == 0x23#8

/-- Which instruction writes which general register (R43). -/
def writesReg (i : Instr) (r : Reg) : Bool :=
  match i with
  | .addReg dr _ _ | .addImm dr _ _ | .andReg dr _ _ | .andImm dr _ _ | .not dr _ => r == dr
  | .ld dr _ | .ldi dr _ | .ldr dr _ _ | .lea dr _ => r == dr
  | .st _ _ | .sti _ _ | .str _ _ _ | .br _ _ _ _ | .jmp _ | .ret | .rti | .res => false
  | .jsr _ | .jsrr _ | .out | .puts | .putsp | .halt => r == .r7
  | .trap v => r == .r7 || (isReadVector v && r == .r0)
  | .getc | .inChar => r == .r7 || r == .r0

/-- The register an instruction sets COND from (R46), if it sets COND at all (R47). -/
def flagDest : Instr → Option Reg
  | .addReg dr _ _ | .addImm dr _ _ | .andReg dr _ _ | .andImm dr _ _ | .not dr _ => some dr
  | .ld dr _ | .ldi dr _ | .ldr dr _ _ | .lea dr _ => some dr
  | .st _ _ | .sti _ _ | .str _ _ _ | .br _ _ _ _ | .jmp _ | .ret | .rti | .res => none
  | .jsr _ | .jsrr _ | .out | .puts | .putsp | .halt => none
  | .trap v => if isReadVector v then some .r0 else none
  | .getc | .inChar => some .r0

/-- The instructions that wait for a byte of the console: GETC and IN (R50). -/
def readsConsole : Instr → Bool
  | .trap v => isReadVector v
  | .getc | .inChar => true
  | _ => false

/-- The instructions that write PC in their handler: BR, JMP (RET), JSR, JSRR (R44). -/
def writesPc : Instr → Bool
  | .br _ _ _ _ | .jmp _ | .ret | .jsr _ | .jsrr _ => true
  | _ => false

/-- The instructions that store (R76). -/
def isStore : Instr → Bool
  | .st _ _ | .sti _ _ | .str _ _ _ => true
  | _ => false

/-- The address a store writes to and the register it stores, as its handler has them in the state s it sees (R190 to R192); none
for an instruction that stores nothing. -/
def storeTarget (s : State) : Instr → Option (Word × Reg)
  | .st sr off9 => some (s.pcRel off9, sr)
  | .sti sr off9 => some (s.memRead (s.pcRel off9), sr)
  | .str sr base off6 => some (s.baseRel base off6, sr)
  | _ => none

/-- The instructions that load into a register through MemRead (R76). -/
def isLoad : Instr → Bool
  | .ld _ _ | .ldi _ _ | .ldr _ _ _ => true
  | _ => false

end Sys2Proof.Safety
end

