-- ==== Sys2Proof/Certificates/Slice0/Obligations.lean ====
section
/-!
DEFINITION. The statements about the LC-3 interpreter core, from the spec's numbered rules. `OBLIGATIONS.json` lists each with its rules;
`Sys2Proof/Tests/Slice0.lean` holds a witness for every statement with hypotheses. In a statement about `exec i s` the state s is the
state a handler sees: s.pc is PC' (40_execution_cycle.md R143).
-/

open Sys2Proof Sys2Proof.Machine Sys2Proof.Safety

/-! ## Encoding (30_encoding.md) -/

/-- Decoding the word of a well-formed instruction gives the instruction back, every operand at every value (R103, R105). -/
def Obligations.DecodeEncodeRoundTrip : Prop :=
  ∀ i : Instr, WellFormed i = true → decode (encode i) = i

/-- Every word is a well-formed instruction, and encoding that instruction gives the word back with its unused bits cleared
(R107, R108, R112). That the alias rows are instructions of their own, and which instruction well-formedness counts for a word, is the
model's choice (log 9). -/
def Obligations.EncodeDecodeKeepsUsedBits : Prop :=
  ∀ w : Word, WellFormed (decode w) = true ∧ encode (decode w) = w &&& usedBits (decode w)

/-- The bits R107 lists are ignored: for each format, changing only them does not change the instruction. -/
def Obligations.UnusedOperandBitsAreIgnored : Prop :=
  ∀ w u : Word,
    ((fieldOpcode w = 0x1#4 ∨ fieldOpcode w = 0x5#4) → w.getLsbD 5 = false → u &&& ~~~0x0018#16 = 0#16 →
      decode (w ^^^ u) = decode w) ∧
    (fieldOpcode w = 0x9#4 → u &&& ~~~0x003F#16 = 0#16 → decode (w ^^^ u) = decode w) ∧
    (fieldOpcode w = 0xC#4 → u &&& ~~~0x0E3F#16 = 0#16 → decode (w ^^^ u) = decode w) ∧
    (fieldOpcode w = 0x4#4 → w.getLsbD 11 = false → u &&& ~~~0x063F#16 = 0#16 → decode (w ^^^ u) = decode w) ∧
    (fieldOpcode w = 0xF#4 → u &&& ~~~0x0F00#16 = 0#16 → decode (w ^^^ u) = decode w) ∧
    ((fieldOpcode w = 0xD#4 ∨ fieldOpcode w = 0x8#4) → u &&& ~~~0x0FFF#16 = 0#16 → decode (w ^^^ u) = decode w)

/-- Decoding is total: ir[15:12] alone selects the opcode, ir[5] the form of ADD and AND, ir[11] JSR or JSRR (R101, R106, R108). -/
def Obligations.OpcodeAndModeBitsSelectTheInstruction : Prop :=
  ∀ w : Word,
    opcodeOf (decode w) = fieldOpcode w ∧
    (fieldOpcode w = 0x1#4 ∧ w.getLsbD 5 = true ↔ ∃ dr sr1 imm5, decode w = .addImm dr sr1 imm5) ∧
    (fieldOpcode w = 0x1#4 ∧ w.getLsbD 5 = false ↔ ∃ dr sr1 sr2, decode w = .addReg dr sr1 sr2) ∧
    (fieldOpcode w = 0x5#4 ∧ w.getLsbD 5 = true ↔ ∃ dr sr1 imm5, decode w = .andImm dr sr1 imm5) ∧
    (fieldOpcode w = 0x5#4 ∧ w.getLsbD 5 = false ↔ ∃ dr sr1 sr2, decode w = .andReg dr sr1 sr2) ∧
    (fieldOpcode w = 0x4#4 ∧ w.getLsbD 11 = true ↔ ∃ off11, decode w = .jsr off11) ∧
    (fieldOpcode w = 0x4#4 ∧ w.getLsbD 11 = false ↔ ∃ base, decode w = .jsrr base)

/-- The words of the spec's own worked examples decode to the instructions they stand for (the examples of R170 to R217; a sanity
statement). -/
def Obligations.SpecExampleWordsDecode : Prop :=
  decode 0x123D#16 = .addImm .r1 .r0 (-3#5) ∧ decode 0x5642#16 = .andReg .r3 .r1 .r2 ∧
  decode 0x997F#16 = .not .r4 .r5 ∧ decode 0x697E#16 = .ldr .r4 .r5 (-2#6) ∧ decode 0xA602#16 = .ldi .r3 2#9 ∧
  decode 0x3203#16 = .st .r1 3#9 ∧ decode 0x0404#16 = .br false true false 4#9 ∧ decode 0xC1C0#16 = .ret ∧
  decode 0x480A#16 = .jsr 10#11 ∧ decode 0x40C0#16 = .jsrr .r3 ∧ decode 0xF025#16 = .halt ∧ decode 0xF026#16 = .trap 0x26#8

/-! ## Common primitives (40_execution_cycle.md) -/

/-- sext_N is the pseudocode of R145, and obeys the two laws of R146: extending again changes nothing, and a field whose sign bit
is clear keeps its value. -/
def Obligations.SignExtensionLaws : Prop :=
  ∀ (n : Nat) (v : BitVec n), 1 ≤ n → n ≤ 16 →
    sext v = (if v.getLsbD (n - 1) then (v.setWidth 16 ||| (0xFFFF#16 <<< n)) &&& 0xFFFF#16 else v.setWidth 16) ∧
    sext ((sext v).setWidth n) = sext v ∧
    (v.getLsbD (n - 1) = false → (sext v).toNat = v.toNat)

/-- setcc(r) sets COND to the one flag that matches the sign of register r's current value and changes nothing else
(R147, R148). -/
def Obligations.SetccClassifiesTheRegister : Prop :=
  ∀ (s : State) (r : Reg),
    FlagsOf (s.reg r) (s.setcc r).cond ∧ CondLegal (s.setcc r).cond ∧
    SameRegsBut [] s (s.setcc r) ∧ (s.setcc r).pc = s.pc ∧ SameMem s (s.setcc r) ∧ SamePorts s (s.setcc r) ∧
    SameRest s (s.setcc r)

/-! ## Memory (20_memory.md) -/

/-- MemRead(a): at KBSR the keyboard is polled first, at any other address nothing happens; the value is the cell's content
after that; no register, flag or control state changes (R72). That a poll's answer comes from `env`, and which events record it, is the
model's choice (logs 2, 6); 0x8000 and the zero extension are the spec's decisions D5 and D6. -/
def Obligations.MemReadGoesThroughTheOverlay : Prop :=
  ∀ (s : State) (a : Word),
    s.memRead a = (s.afterRead a).rawRead a ∧ ReadEffect a s (s.afterRead a) ∧
    SameRegsBut [] s (s.afterRead a) ∧ (s.afterRead a).pc = s.pc ∧ (s.afterRead a).cond = s.cond ∧
    SameRest s (s.afterRead a)

/-- MemWrite(a, v) stores v at every address, KBSR and KBDR among them, changes no other cell, and has no other
effect (R73). -/
def Obligations.MemWriteStoresEverywhere : Prop :=
  ∀ (s : State) (a v : Word),
    (s.memWrite a v).rawRead a = v ∧ (∀ b, b ≠ a → (s.memWrite a v).rawRead b = s.rawRead b) ∧
    SameRegsBut [] s (s.memWrite a v) ∧ (s.memWrite a v).pc = s.pc ∧ (s.memWrite a v).cond = s.cond ∧
    SamePorts s (s.memWrite a v) ∧ SameRest s (s.memWrite a v)

/-- A value stored at KBSR is never returned by a MemRead of it: that gives 0x8000 or 0x0000 by the keyboard's answer, whatever is
stored there, and is seen only by RawRead. A value stored at KBDR is returned (R74, R75). Both are what the spec marks as its own
inference "[derived: from rule R72 and rule R73]". -/
def Obligations.KeyboardCellsReadAsTheOverlaySays : Prop :=
  ∀ (s : State) (v : Word),
    (s.memWrite KBSR v).memRead KBSR = (if s.kbdAnswer.isSome then 0x8000#16 else 0x0000#16) ∧
    (s.memWrite KBSR v).rawRead KBSR = v ∧
    (s.memWrite KBDR v).memRead KBDR = v ∧
    (∀ c, s.kbdAnswer = some c → ((s.memWrite KBDR v).afterRead KBSR).memRead KBDR = zext8 c) ∧
    (s.kbdAnswer = none → ((s.memWrite KBDR v).afterRead KBSR).memRead KBDR = v)

/-- Two memories in canonical form that hold the same 65,536 words are the same data (the model's representation, log 1). -/
def Obligations.CanonicalMemoryIsDeterminedByItsWords : Prop :=
  ∀ m m' : List Host.Cell, Memory.wf m = true → Memory.wf m' = true → (∀ a, wordAt m a = wordAt m' a) → m = m'

/-! ## Reset and boot (10_state.md R53, 70_reset_and_hazards.md) -/

/-- The state at reset: every piece of state at the value R53 gives it. The console wait's value is the spec's own inference ("not waiting
... [derived: from rule R50 and rule R49]"), that of `cancel_pending` its decision D12; no value the model chose is stated. -/
def Obligations.ResetValues : Prop :=
  (∀ r, State.reset.reg r = 0x0000#16) ∧ State.reset.pc = 0x3000#16 ∧ State.reset.cond = 0x0002#16 ∧
  (∀ a, State.reset.rawRead a = 0x0000#16) ∧ State.reset.run = .running ∧ State.reset.activity = .idle ∧
  State.reset.cancelPending = false

/-- The reset state meets the invariant. -/
def Obligations.ResetMeetsTheInvariant : Prop :=
  Inv State.reset

/-- LoadImage: the first two bytes are the origin, big-endian; word j of the rest lands at origin + j as long as that is inside
memory; every other cell keeps its content; a trailing odd byte is ignored and a file of fewer than 2 bytes loads nothing.
The boot state is reset in every field but its memory, so the origin does not set PC (R270, R271, R272). What reset gives `ir`,
`params` and `env` is the model's choice (logs 2 to 5, 7) and only said to be unchanged. The odd byte and the short file are the spec's
decision D16; that the origin does not set PC is its inference "[derived: from §4.6 and §4.5, ...]". -/
def Obligations.LoadImageContents : Prop :=
  (∀ (m : List Host.Cell) (hi lo : Byte) (rest : List Byte) (a : Word),
    wordAt (loadImage m (hi :: lo :: rest)) a =
      if (joinBytes hi lo).toNat ≤ a.toNat ∧ a.toNat - (joinBytes hi lo).toNat < rest.length / 2 then
        joinBytes (rest.getD (2 * (a.toNat - (joinBytes hi lo).toNat)) 0#8)
          (rest.getD (2 * (a.toNat - (joinBytes hi lo).toNat) + 1) 0#8)
      else wordAt m a) ∧
  (∀ (m : List Host.Cell) (bytes : List Byte), bytes.length < 2 → loadImage m bytes = m) ∧
  (∀ images : List (List Byte),
    (boot images).mem = images.foldl loadImage [] ∧ (boot images).regs = State.reset.regs ∧ (boot images).pc = 0x3000#16 ∧
    (boot images).cond = 0x0002#16 ∧ (boot images).run = .running ∧ (boot images).activity = .idle ∧
    (boot images).cancelPending = false ∧ (boot images).ir = State.reset.ir ∧ (boot images).events = [] ∧
    (boot images).params = State.reset.params ∧ (boot images).env = State.reset.env)

/-- Execution over cells that hold 0x0000 slides forward one word per step, past 0xFFFF to 0x0000 too, and changes nothing else
(R275); stated for a run in which no cancellation arrives and the fetch does not pass KBSR. R275 marks this as its own inference
"[derived: from rule R270, rule R271 and 44_control.md rule R200]"; when a cancellation arrives is the model's log 4. -/
def Obligations.UnloadedMemorySlides : Prop :=
  ∀ (n : Nat) (s : State), AtBoundary s → s.env.cancelIn = none →
    (∀ k < n, s.pc + BitVec.ofNat 16 k ≠ KBSR ∧ s.rawRead (s.pc + BitVec.ofNat 16 k) = 0x0000#16) →
    ∃ t : State, Host.Core.run Sys2Proof.core n s = .next t ∧ t.pc = s.pc + BitVec.ofNat 16 n ∧
      SameRegsBut [] s t ∧ t.cond = s.cond ∧ SameMem s t ∧ SamePorts s t ∧ AtBoundary t

/-! ## Invariants -/

/-- Every step keeps the invariant: memory canonical, COND legal, nothing in progress after the end of the run, R7 = PC' during a
trap routine that has not completed, a string that never ends only without a zero word in memory (R45, R50, R218). The canonical form is
the model's choice (log 1), and so is how a wait without a byte and an endless string are held (logs 3, 8). -/
def Obligations.StepKeepsTheInvariant : Prop :=
  ∀ s t : State, Inv s → step s = .next t → Inv t

/-- Whatever images are loaded, every state of the run from the boot state meets the invariant (the parts of it that are the
model's choice: logs 1, 3, 8). -/
def Obligations.RunsFromBootKeepTheInvariant : Prop :=
  ∀ (images : List (List Byte)) (k : Nat) (t : State), Host.Core.run Sys2Proof.core k (boot images) = .next t → Inv t

/-- The sequence of port events only grows, at its end, and the parameters never change,
whatever a step does (R8, R154). That State holds both is the model's choice (logs 6, 7). -/
def Obligations.PortHistoryOnlyGrows : Prop :=
  ∀ s t : State, step s = .next t → (∃ es, t.events = s.events ++ es) ∧ t.params = s.params

/-! ## The step (40_execution_cycle.md, 60_exceptions.md) -/

/-- One step of a running core at a boundary: a pending cancellation ends the run without a fetch; otherwise the word MemRead(pc) is
fetched, pc is incremented, and the instruction it decodes to runs, after which only the arrival of a cancellation is taken in
(R141). How that arrival is modelled, the last clause, is the model's choice (log 4). -/
def Obligations.StepRunsTheDecodedInstruction : Prop :=
  (∀ (s : State) (w : Word) (i : Instr), AtBoundary s → s.memRead s.pc = w → decode w = i →
    step s = afterTransition (exec i (((s.afterRead s.pc).setIr w).setPc (s.pc + 1#16)))) ∧
  (∀ s : State, s.run = .running → s.activity = .idle → s.cancelPending = true →
    step s = .next (s.setRun (.halted .cancel))) ∧
  (∀ u : State,
    (u.env.cancelIn = none → afterTransition (.next u) = .next u) ∧
    (∀ k, u.env.cancelIn = some (k + 1) → afterTransition (.next u) = .next (u.setEnv { u.env with cancelIn := some k })) ∧
    (u.env.cancelIn = some 0 → afterTransition (.next u) = .next (hostCancel (u.setEnv { u.env with cancelIn := none }))))

/-- A fetch from KBSR polls the keyboard: with a key pending the fetched word is 0x8000, which aborts as RTI, the key is in KBDR; with
none it is 0x0000, a no-op (R142, the spec's decision D24). -/
def Obligations.FetchAtKbsrPolls : Prop :=
  ∀ s : State, AtBoundary s → s.pc = KBSR →
    (∀ c, s.kbdAnswer = some c →
      ∃ t, step s = .next t ∧ t.ir = 0x8000#16 ∧ t.run = .aborted .rtiOpcode ∧ t.pc = 0xFE01#16 ∧
        t.rawRead KBSR = 0x8000#16 ∧ t.rawRead KBDR = zext8 c ∧ SameRegsBut [] s t ∧ t.cond = s.cond) ∧
    (s.kbdAnswer = none →
      ∃ t, step s = .next t ∧ t.ir = 0x0000#16 ∧ t.run = .running ∧ t.pc = 0xFE01#16 ∧
        t.rawRead KBSR = 0x0000#16 ∧ t.rawRead KBDR = s.rawRead KBDR ∧ SameRegsBut [] s t ∧ t.cond = s.cond)

/-- A store is seen by every later fetch of its address (R87, which the spec marks as its own inference "[derived: from rule R70, rule
R83 and 40_execution_cycle.md rule R141]"): a fetch at the address right after the write gives the value; after the step of an ST, STI or
STR so does a fetch at its address, the next step's own fetch if it stored to the next instruction; and through any number of
steps that neither store to the address nor put a key's character there, what a fetch at the address gives stays the same. -/
def Obligations.StoreIsSeenByTheNextFetch : Prop :=
  (∀ (s : State) (a v : Word), a ≠ KBSR → ((s.memWrite a v).setPc a).fetch.ir = v) ∧
  (∀ (s : State) (a : Word) (r : Reg), AtBoundary s → storeTarget s.fetch (decode s.fetch.ir) = some (a, r) → a ≠ KBSR →
    ∃ t, step s = .next t ∧ (t.setPc a).fetch.ir = s.reg r ∧ (a = s.pc + 1#16 → t.fetch.ir = s.reg r)) ∧
  (∀ (a : Word) (n : Nat) (f : Nat → State), a ≠ KBSR →
    (∀ k < n, step (f k) = .next (f (k + 1)) ∧
      (∀ r, storeTarget (f k).fetch (decode (f k).fetch.ir) ≠ some (a, r)) ∧
      (a = KBDR → ∀ c, PortEvent.kbdConsume c ∉ (f (k + 1)).events.drop (f k).events.length)) →
    ((f n).setPc a).fetch.ir = ((f 0).setPc a).fetch.ir)

/-- From Halted and from Aborted no step changes anything (R150, R151, the spec's decision D23). That the model's step then answers the
unchanged state is the model's choice (log 13). -/
def Obligations.FinalStatesTakeNoStep : Prop :=
  ∀ s : State, s.run ≠ .running → ∀ k, Host.Core.run Sys2Proof.core k s = .next s

/-- Cancellation (R243, R244): the event sets `cancel_pending` and, outside a console wait, nothing else; it ends a console wait at once, and
at a step boundary a pending one ends the run: Halted by Cancel, with R0, COND, the output and all else as they are. During any
other step it lets the step complete, so that it is taken at the next boundary; during a GETC or IN that no byte answers it ends
the run within that step, R7 = PC'. These are the spec's decisions D12 and D19; when a cancellation arrives, that an endless string
never lets it be taken, and what remains of the flag are the model's choice (logs 4, 8, 10). -/
def Obligations.CancellationIsTakenAtABoundaryOrInAWait : Prop :=
  (∀ s : State, (hostCancel s).cancelPending = true ∧
    ((∀ who, s.activity ≠ .consoleWait who) → hostCancel s = s.setCancelPending true)) ∧
  (∀ (s : State) (who : ConsoleRead), s.run = .running → s.activity = .consoleWait who →
    (hostCancel s).run = .halted .cancel ∧ (hostCancel s).activity = .idle ∧ SameRegsBut [] s (hostCancel s) ∧
      (hostCancel s).pc = s.pc ∧ (hostCancel s).cond = s.cond ∧ (hostCancel s).mem = s.mem ∧ (hostCancel s).ir = s.ir ∧
      SamePorts s (hostCancel s) ∧ (hostCancel s).params = s.params) ∧
  (∀ s : State, s.run = .running → s.cancelPending = true →
    (s.activity = .idle ∨ ∃ who, s.activity = .consoleWait who) →
    ∃ t, step s = .next t ∧ t.run = .halted .cancel ∧ t.activity = .idle ∧ SameRegsBut [] s t ∧ t.pc = s.pc ∧
      t.cond = s.cond ∧ t.mem = s.mem ∧ t.ir = s.ir ∧ SamePorts s t ∧ t.params = s.params) ∧
  (∀ s : State, AtBoundary s → s.env.cancelIn = some 0 →
    ∃ u, exec (decode s.fetch.ir) s.fetch = .next u ∧
      step s = .next (hostCancel (u.setEnv { u.env with cancelIn := none }))) ∧
  (∀ s : State, AtBoundary s → s.env.cancelIn = some 0 → readsConsole (decode s.fetch.ir) = true → s.fetch.conAnswer = none →
    ∃ t, step s = .next t ∧ t.run = .halted .cancel ∧ t.activity = .idle ∧ SameRegsBut [.r7] s t ∧
      t.reg .r7 = s.pc + 1#16 ∧ t.pc = s.pc + 1#16 ∧ t.cond = s.cond ∧ SameMem s t) ∧
  (∀ (s : State) (kind : StringKind) (a : Word), s.run = .running → s.activity = .stringLoop kind a →
    (hostCancel s).run = .running ∧ step (hostCancel s) = .next (hostCancel s))

/-- While GETC or IN waits and neither a byte nor a cancellation comes, nothing changes, however long it lasts: no register, no memory
cell, and no timeout ends the wait (R50). That an unanswered read leaves the core in a state of its own, which the model's step answers
unchanged, is the model's choice (log 3). -/
def Obligations.ConsoleWaitChangesNothing : Prop :=
  ∀ (s : State) (who : ConsoleRead), s.run = .running → s.activity = .consoleWait who → s.cancelPending = false →
    ∀ k, Host.Core.run Sys2Proof.core k s = .next s

/-- However long the console waits, the byte that comes ends the routine: R0 is the zero-extended byte, COND is set from it, IN has
echoed it and flushed, and nothing else has changed (R50, R211, R214). That the late byte is an event of the host, `hostByte`, and no
transition is the model's choice (log 3). -/
def Obligations.ConsoleWaitEndsWithTheByte : Prop :=
  ∀ (k : Nat) (s : State) (who : ConsoleRead) (b : Byte),
    s.run = .running → s.activity = .consoleWait who → s.cancelPending = false →
    ∃ u : State, Host.Core.run Sys2Proof.core k s = .next u ∧
      AtBoundary (hostByte u b) ∧ (hostByte u b).reg .r0 = zext8 b ∧
      FlagsOf (zext8 b) (hostByte u b).cond ∧ SameRegsBut [.r0] s (hostByte u b) ∧ (hostByte u b).pc = s.pc ∧
      (hostByte u b).mem = s.mem ∧ (hostByte u b).ir = s.ir ∧ (hostByte u b).params = s.params ∧ (hostByte u b).env = s.env ∧
      (hostByte u b).events = s.events ++ (match who with
        | .getc => [.conRead b]
        | .inChar => [.conRead b, .conWrite b, .conFlush])

/-- What ends a run, and nothing else does: a cancellation pending at a boundary or in a console wait, one that comes during a GETC or IN
that no byte answers, TRAP HALT, RES, RTI, and an undefined vector under the policy `abort` (R140). When a cancellation comes is the
model's choice (log 4), and that none is acted on inside an endless string is its reading of R243 (log 8). -/
def Obligations.OnlyTheseEventsEndARun : Prop :=
  ∀ s t : State, s.run = .running → step s = .next t → t.run ≠ .running →
    (t.run = .halted .cancel ∧ s.cancelPending = true ∧
      (s.activity = .idle ∨ ∃ who, s.activity = .consoleWait who)) ∨
    (AtBoundary s ∧
      ((t.run = .halted .cancel ∧ readsConsole (decode s.fetch.ir) = true ∧ s.fetch.conAnswer = none ∧
        s.env.cancelIn = some 0) ∨
       (t.run = .halted .haltTrap ∧ decode s.fetch.ir = .halt) ∨
       (t.run = .aborted .reservedOpcode ∧ decode s.fetch.ir = .res) ∨
       (t.run = .aborted .rtiOpcode ∧ decode s.fetch.ir = .rti) ∨
       (∃ v, t.run = .aborted (.undefinedTrap v) ∧ decode s.fetch.ir = .trap v ∧ isServiceVector v = false ∧
         s.params.undefinedTrapPolicy = .abort)))

/-- A fatal abort is precise: of the state before the step only PC, and for an undefined vector R7, have changed; the address of the
instruction is pc - 1 and its word is kept (R241; R240). A fetch at KBSR is itself a read that polls. -/
def Obligations.AbortIsPrecise : Prop :=
  ∀ (s t : State) (reason : AbortReason), s.run = .running → step s = .next t → t.run = .aborted reason →
    t.pc - 1#16 = s.pc ∧ t.ir = s.memRead s.pc ∧ t.cond = s.cond ∧ t.params = s.params ∧
    SameMem (s.afterRead s.pc) t ∧ t.events = (s.afterRead s.pc).events ∧
    (match reason with
      | .undefinedTrap v => SameRegsBut [.r7] s t ∧ t.reg .r7 = t.pc ∧ fieldVect8 t.ir = v
      | _ => SameRegsBut [] s t)

/-! ## Rules over all instructions -/

/-- Dispatch never fails and nothing faults: every instruction in every state, and every step, gives a next state (R144, R242). One
transition is one instruction (R152, R279): a step from a boundary leads to a boundary or the end of the run, unless its instruction never
completes, because no byte comes or no cell holds the zero word (R153); and from such a state no step changes anything, but
for a cancellation that ends a wait. How the steps that never complete are held is the model's choice (logs 3, 8). -/
def Obligations.EveryInstructionAndStepGivesANextState : Prop :=
  (∀ (i : Instr) (s : State), ∃ t, exec i s = .next t) ∧ (∀ s : State, ∃ t, step s = .next t) ∧
  (∀ s t : State, AtBoundary s → step s = .next t →
    t.activity = .idle ∨
    (readsConsole (decode s.fetch.ir) = true ∧ s.fetch.conAnswer = none ∧ ∃ who, t.activity = .consoleWait who) ∨
    ((∀ b, t.rawRead b ≠ 0x0000#16) ∧ ∃ kind, t.activity = .stringLoop kind (s.reg .r0))) ∧
  (∀ s t : State, s.activity ≠ .idle → step s = .next t → t = s ∨ (s.cancelPending = true ∧ t = s.haltByCancel))

/-- COND is written by ADD, AND, NOT, LD, LDI, LDR, LEA from their destination and by GETC and IN from R0 once their byte has
arrived; every other instruction leaves it unchanged (R46, R47). -/
def Obligations.OnlyListedInstructionsWriteCond : Prop :=
  ∀ (i : Instr) (s t : State), exec i s = .next t →
    (flagDest i = none → t.cond = s.cond) ∧
    (∀ r, flagDest i = some r →
      (readsConsole i = true ∧ s.conAnswer = none ∧ t.cond = s.cond) ∨ FlagsOf (t.reg r) t.cond)

/-- The only reader of COND is BR: any other instruction, run from two states that differ in COND alone, gives states that differ
in COND alone, and in COND only if the instruction leaves COND as it was (R46). -/
def Obligations.OnlyBranchesReadCond : Prop :=
  ∀ (i : Instr) (s : State) (c : Word), (∀ n z p off9, i ≠ .br n z p off9) →
    ∃ t d, exec i s = .next t ∧ exec i (s.setCond c) = .next (t.setCond d) ∧ (d = t.cond ∨ (t.cond = s.cond ∧ d = c))

/-- The general registers each instruction may write are those of R43; every other register keeps its value. -/
def Obligations.OnlyListedRegistersAreWritten : Prop :=
  ∀ (i : Instr) (s t : State), exec i s = .next t → ∀ r, writesReg i r = false → t.reg r = s.reg r

/-- Every instruction but BR, JMP (RET), JSR and JSRR leaves PC at PC' (R44). -/
def Obligations.OnlyControlTransfersWritePc : Prop :=
  ∀ (i : Instr) (s t : State), exec i s = .next t → writesPc i = false → t.pc = s.pc

/-- Memory is written by the stores; a load changes at most KBSR and KBDR, by polling; every other instruction, the trap routines
among them, leaves memory as it was (R76, R219). -/
def Obligations.OnlyStoresAndPollsWriteMemory : Prop :=
  ∀ (i : Instr) (s t : State), exec i s = .next t → isStore i = false →
    (∀ a, a ≠ KBSR → a ≠ KBDR → t.rawRead a = s.rawRead a) ∧ (isLoad i = false → t.mem = s.mem)

/-! ## Operate instructions (41_operate.md) -/

/-- ADD, both forms (R170): DR is the sum modulo 2^16, COND its condition code, nothing else changes; with the decoding of every
word of opcode 0x1. -/
def Obligations.AddAddsModulo65536 : Prop :=
  (∀ ir : Word, fieldOpcode ir = 0x1#4 →
    decode ir = if ir.getLsbD 5 then .addImm (fieldR9 ir) (fieldR6 ir) (fieldImm5 ir)
      else .addReg (fieldR9 ir) (fieldR6 ir) (fieldR0 ir)) ∧
  (∀ (dr sr1 sr2 : Reg) (s : State), ∃ t, exec (.addReg dr sr1 sr2) s = .next t ∧
    (t.reg dr).toNat = ((s.reg sr1).toNat + (s.reg sr2).toNat) % 65536 ∧ FlagsOf (t.reg dr) t.cond ∧
    SameRegsBut [dr] s t ∧ t.pc = s.pc ∧ SameMem s t ∧ SamePorts s t ∧ SameRest s t) ∧
  (∀ (dr sr1 : Reg) (imm5 : BitVec 5) (s : State), ∃ t, exec (.addImm dr sr1 imm5) s = .next t ∧
    (t.reg dr).toNat = ((s.reg sr1).toNat + (sext imm5).toNat) % 65536 ∧ FlagsOf (t.reg dr) t.cond ∧
    SameRegsBut [dr] s t ∧ t.pc = s.pc ∧ SameMem s t ∧ SamePorts s t ∧ SameRest s t)

/-- AND, both forms (R171): each bit of DR is the conjunction of the operands' bits, COND its condition code, nothing else
changes; with the decoding of every word of opcode 0x5. -/
def Obligations.AndIsBitwise : Prop :=
  (∀ ir : Word, fieldOpcode ir = 0x5#4 →
    decode ir = if ir.getLsbD 5 then .andImm (fieldR9 ir) (fieldR6 ir) (fieldImm5 ir)
      else .andReg (fieldR9 ir) (fieldR6 ir) (fieldR0 ir)) ∧
  (∀ (dr sr1 sr2 : Reg) (s : State), ∃ t, exec (.andReg dr sr1 sr2) s = .next t ∧
    (∀ k, (t.reg dr).getLsbD k = ((s.reg sr1).getLsbD k && (s.reg sr2).getLsbD k)) ∧ FlagsOf (t.reg dr) t.cond ∧
    SameRegsBut [dr] s t ∧ t.pc = s.pc ∧ SameMem s t ∧ SamePorts s t ∧ SameRest s t) ∧
  (∀ (dr sr1 : Reg) (imm5 : BitVec 5) (s : State), ∃ t, exec (.andImm dr sr1 imm5) s = .next t ∧
    (∀ k, (t.reg dr).getLsbD k = ((s.reg sr1).getLsbD k && (sext imm5).getLsbD k)) ∧ FlagsOf (t.reg dr) t.cond ∧
    SameRegsBut [dr] s t ∧ t.pc = s.pc ∧ SameMem s t ∧ SamePorts s t ∧ SameRest s t)

/-- NOT (R172): each of the 16 bits of DR is the complement of SR's, COND its condition code, nothing else changes; with the
decoding of every word of opcode 0x9. -/
def Obligations.NotComplements : Prop :=
  (∀ ir : Word, fieldOpcode ir = 0x9#4 → decode ir = .not (fieldR9 ir) (fieldR6 ir)) ∧
  (∀ (dr sr : Reg) (s : State), ∃ t, exec (.not dr sr) s = .next t ∧
    (∀ k < 16, (t.reg dr).getLsbD k = !(s.reg sr).getLsbD k) ∧ FlagsOf (t.reg dr) t.cond ∧
    SameRegsBut [dr] s t ∧ t.pc = s.pc ∧ SameMem s t ∧ SamePorts s t ∧ SameRest s t)

/-- The immediate and register forms of ADD and AND agree when SR2 holds the sign-extended immediate (R174). -/
def Obligations.ImmediateAndRegisterFormsAgree : Prop :=
  ∀ (dr sr1 sr2 : Reg) (imm5 : BitVec 5) (s : State), s.reg sr2 = sext imm5 →
    ∃ t u, exec (.addImm dr sr1 imm5) s = .next t ∧ exec (.addReg dr sr1 sr2) s = .next t ∧
      exec (.andImm dr sr1 imm5) s = .next u ∧ exec (.andReg dr sr1 sr2) s = .next u

/-! ## Loads (42_loads.md) -/

/-- LD (R180): DR is what MemRead gives at PC' + offset, COND its condition code; at KBSR the read polls and DR is 0x8000 (NEG) or
0x0000 (ZRO); nothing else changes. -/
def Obligations.LdLoadsPcRelative : Prop :=
  (∀ ir : Word, fieldOpcode ir = 0x2#4 → decode ir = .ld (fieldR9 ir) (fieldOff9 ir)) ∧
  (∀ (dr : Reg) (off9 : BitVec 9) (s : State), ∃ t, exec (.ld dr off9) s = .next t ∧
    t.reg dr = t.rawRead (s.pc + sext off9) ∧ FlagsOf (t.reg dr) t.cond ∧ ReadEffect (s.pc + sext off9) s t ∧
    (s.pc + sext off9 = KBSR →
      (s.kbdAnswer.isSome = true → t.reg dr = 0x8000#16 ∧ t.cond = NEG) ∧
      (s.kbdAnswer = none → t.reg dr = 0x0000#16 ∧ t.cond = ZRO)) ∧
    SameRegsBut [dr] s t ∧ t.pc = s.pc ∧ SameRest s t)

/-- LDI (R181): the pointer is read first, at PC' + offset, then the data where it points, both through the overlay, in this
order; DR is the data, COND its condition code; nothing else changes. -/
def Obligations.LdiLoadsThroughThePointer : Prop :=
  (∀ ir : Word, fieldOpcode ir = 0xA#4 → decode ir = .ldi (fieldR9 ir) (fieldOff9 ir)) ∧
  (∀ (dr : Reg) (off9 : BitVec 9) (s : State),
    ReadEffect (s.pc + sext off9) s (s.afterRead (s.pc + sext off9)) ∧
    s.memRead (s.pc + sext off9) = (s.afterRead (s.pc + sext off9)).rawRead (s.pc + sext off9) ∧
    ∃ t, exec (.ldi dr off9) s = .next t ∧
      t.reg dr = t.rawRead (s.memRead (s.pc + sext off9)) ∧ FlagsOf (t.reg dr) t.cond ∧
      ReadEffect (s.memRead (s.pc + sext off9)) (s.afterRead (s.pc + sext off9)) t ∧
      SameRegsBut [dr] s t ∧ t.pc = s.pc ∧ SameRest s t)

/-- LDR (R182): DR is what MemRead gives at BaseR + offset, BaseR read before DR is written; COND its condition code; nothing
else changes. -/
def Obligations.LdrLoadsBasePlusOffset : Prop :=
  (∀ ir : Word, fieldOpcode ir = 0x6#4 → decode ir = .ldr (fieldR9 ir) (fieldR6 ir) (fieldOff6 ir)) ∧
  (∀ (dr base : Reg) (off6 : BitVec 6) (s : State), ∃ t, exec (.ldr dr base off6) s = .next t ∧
    t.reg dr = t.rawRead (s.reg base + sext off6) ∧ FlagsOf (t.reg dr) t.cond ∧
    ReadEffect (s.reg base + sext off6) s t ∧ SameRegsBut [dr] s t ∧ t.pc = s.pc ∧ SameRest s t)

/-- LEA (R183): DR is the address PC' + offset modulo 2^16, COND IS set from it, and no memory is read, so no poll; nothing
else changes. -/
def Obligations.LeaComputesTheAddress : Prop :=
  (∀ ir : Word, fieldOpcode ir = 0xE#4 → decode ir = .lea (fieldR9 ir) (fieldOff9 ir)) ∧
  (∀ (dr : Reg) (off9 : BitVec 9) (s : State), ∃ t, exec (.lea dr off9) s = .next t ∧
    (t.reg dr).toNat = (s.pc.toNat + (sext off9).toNat) % 65536 ∧ FlagsOf (t.reg dr) t.cond ∧
    SameRegsBut [dr] s t ∧ t.pc = s.pc ∧ SameMem s t ∧ SamePorts s t ∧ SameRest s t)

/-- LDI is two chained loads (R184): an LD of the pointer into DR, then a load from the address in DR, end in the same state,
with the same reads in the same order. -/
def Obligations.LdiIsTwoChainedLoads : Prop :=
  ∀ (dr : Reg) (off9 : BitVec 9) (s : State),
    ∃ u, exec (.ld dr off9) s = .next u ∧ exec (.ldi dr off9) s = exec (.ldr dr dr 0#6) u

/-! ## Stores (43_stores.md) -/

/-- ST (R190): the cell at PC' + offset takes SR's value; no other cell, no register, no flag changes. -/
def Obligations.StStoresPcRelative : Prop :=
  (∀ ir : Word, fieldOpcode ir = 0x3#4 → decode ir = .st (fieldR9 ir) (fieldOff9 ir)) ∧
  (∀ (sr : Reg) (off9 : BitVec 9) (s : State), ∃ t, exec (.st sr off9) s = .next t ∧
    t.rawRead (s.pcRel off9) = s.reg sr ∧ (∀ a, a ≠ s.pcRel off9 → t.rawRead a = s.rawRead a) ∧
    s.pcRel off9 = s.pc + sext off9 ∧
    SameRegsBut [] s t ∧ t.pc = s.pc ∧ t.cond = s.cond ∧ SamePorts s t ∧ SameRest s t)

/-- STI (R191): the pointer is read through the overlay at PC' + offset, then the cell it points to takes SR's value; no other
cell but those of the poll, no register, no flag changes. -/
def Obligations.StiStoresThroughThePointer : Prop :=
  (∀ ir : Word, fieldOpcode ir = 0xB#4 → decode ir = .sti (fieldR9 ir) (fieldOff9 ir)) ∧
  (∀ (sr : Reg) (off9 : BitVec 9) (s : State),
    ReadEffect (s.pc + sext off9) s (s.afterRead (s.pc + sext off9)) ∧
    s.memRead (s.pc + sext off9) = (s.afterRead (s.pc + sext off9)).rawRead (s.pc + sext off9) ∧
    ∃ t, exec (.sti sr off9) s = .next t ∧
      t.rawRead (s.memRead (s.pc + sext off9)) = s.reg sr ∧
      (∀ a, a ≠ s.memRead (s.pc + sext off9) → t.rawRead a = (s.afterRead (s.pc + sext off9)).rawRead a) ∧
      SamePorts (s.afterRead (s.pc + sext off9)) t ∧
      SameRegsBut [] s t ∧ t.pc = s.pc ∧ t.cond = s.cond ∧ SameRest s t)

/-- STR (R192): the cell at BaseR + offset takes SR's value; no other cell, no register, no flag changes. -/
def Obligations.StrStoresBasePlusOffset : Prop :=
  (∀ ir : Word, fieldOpcode ir = 0x7#4 → decode ir = .str (fieldR9 ir) (fieldR6 ir) (fieldOff6 ir)) ∧
  (∀ (sr base : Reg) (off6 : BitVec 6) (s : State), ∃ t, exec (.str sr base off6) s = .next t ∧
    t.rawRead (s.baseRel base off6) = s.reg sr ∧ (∀ a, a ≠ s.baseRel base off6 → t.rawRead a = s.rawRead a) ∧
    s.baseRel base off6 = s.reg base + sext off6 ∧
    SameRegsBut [] s t ∧ t.pc = s.pc ∧ t.cond = s.cond ∧ SamePorts s t ∧ SameRest s t)

/-! ## Control transfer (44_control.md) -/

/-- BR (R200): taken when an asserted bit among n, z, p matches COND's NEG, ZRO, POS, that is when (ir[11:9] & COND[2:0]) is not 0 for
a legal COND; then PC is PC' + offset, else PC'; nothing else changes. -/
def Obligations.BrBranchesOnCond : Prop :=
  (∀ ir : Word, fieldOpcode ir = 0x0#4 →
    decode ir = .br (ir.getLsbD 11) (ir.getLsbD 10) (ir.getLsbD 9) (fieldOff9 ir)) ∧
  (∀ (n z p : Bool) (off9 : BitVec 9) (s : State), ∃ t, exec (.br n z p off9) s = .next t ∧
    ((n = true ∧ s.cond = NEG) ∨ (z = true ∧ s.cond = ZRO) ∨ (p = true ∧ s.cond = POS) → t.pc = s.pc + sext off9) ∧
    (¬((n = true ∧ s.cond = NEG) ∨ (z = true ∧ s.cond = ZRO) ∨ (p = true ∧ s.cond = POS)) → t.pc = s.pc) ∧
    SameRegsBut [] s t ∧ t.cond = s.cond ∧ SameMem s t ∧ SamePorts s t ∧ SameRest s t) ∧
  (∀ (ir c : Word), CondLegal c →
    (branchTaken (ir.getLsbD 11) (ir.getLsbD 10) (ir.getLsbD 9) c = true ↔
      ir.extractLsb' 9 3 &&& c.extractLsb' 0 3 ≠ 0#3))

/-- JMP and RET (R201, R202): PC is the base register's value, R7's for RET, which is the JMP word with base R7; nothing
else changes. -/
def Obligations.JmpAndRetJumpToTheBase : Prop :=
  (∀ ir : Word, fieldOpcode ir = 0xC#4 → decode ir = if fieldR6 ir = .r7 then .ret else .jmp (fieldR6 ir)) ∧
  (∀ (base : Reg) (s : State), ∃ t, exec (.jmp base) s = .next t ∧ t.pc = s.reg base ∧
    SameRegsBut [] s t ∧ t.cond = s.cond ∧ SameMem s t ∧ SamePorts s t ∧ SameRest s t) ∧
  (∀ s : State, ∃ t, exec .ret s = .next t ∧ exec (.jmp .r7) s = .next t ∧ t.pc = s.reg .r7 ∧
    SameRegsBut [] s t ∧ t.cond = s.cond ∧ SameMem s t ∧ SamePorts s t ∧ SameRest s t)

/-- JSR (R203): R7 is PC', PC is PC' + offset; COND and everything else stay. -/
def Obligations.JsrCallsPcRelative : Prop :=
  (∀ ir : Word, fieldOpcode ir = 0x4#4 → ir.getLsbD 11 = true → decode ir = .jsr (fieldOff11 ir)) ∧
  (∀ (off11 : BitVec 11) (s : State), ∃ t, exec (.jsr off11) s = .next t ∧
    t.reg .r7 = s.pc ∧ t.pc = s.pc + sext off11 ∧
    SameRegsBut [.r7] s t ∧ t.cond = s.cond ∧ SameMem s t ∧ SamePorts s t ∧ SameRest s t)

/-- JSRR (R204): R7 is PC', saved first; PC is the base register read after that, for a base other than R7 its old value, and JSRR R7
falls through to PC', as the spec infers "[derived: from the pseudocode of this rule, which writes R7 before it reads BaseR]"; COND and
everything else stay. -/
def Obligations.JsrrCallsThroughTheBase : Prop :=
  (∀ ir : Word, fieldOpcode ir = 0x4#4 → ir.getLsbD 11 = false → decode ir = .jsrr (fieldR6 ir)) ∧
  (∀ (base : Reg) (s : State), ∃ t, exec (.jsrr base) s = .next t ∧
    t.reg .r7 = s.pc ∧ t.pc = t.reg base ∧ (base ≠ .r7 → t.pc = s.reg base) ∧ (base = .r7 → t.pc = s.pc) ∧
    SameRegsBut [.r7] s t ∧ t.cond = s.cond ∧ SameMem s t ∧ SamePorts s t ∧ SameRest s t)

/-- Call and return (R206): a JSR, or a JSRR whose base is not R7, leaves its own address + 1 in R7, and a RET executed with that R7
returns exactly there. -/
def Obligations.CallReturnRoundTrip : Prop :=
  ∀ (s : State) (i : Instr), AtBoundary s → decode s.fetch.ir = i →
    ((∃ off11, i = .jsr off11) ∨ (∃ base, base ≠ .r7 ∧ i = .jsrr base)) →
    ∃ t, step s = .next t ∧ t.reg .r7 = s.pc + 1#16 ∧
      ∀ u, AtBoundary u → u.reg .r7 = t.reg .r7 → decode u.fetch.ir = .ret →
        ∃ w, step u = .next w ∧ w.pc = s.pc + 1#16

/-! ## Traps (45_trap.md) -/

/-- TRAP (R210): R7 is PC', whatever the vector; the vectors 0x20 to 0x25 run the six routines, any other the undefined-vector
policy; PC stays PC'. -/
def Obligations.TrapSavesPcAndDispatches : Prop :=
  (∀ ir : Word, fieldOpcode ir = 0xF#4 → ∀ s, exec (decode ir) s = exec (.trap (fieldVect8 ir)) s) ∧
  (∀ s : State, exec (.trap 0x20#8) s = exec .getc s ∧ exec (.trap 0x21#8) s = exec .out s ∧
    exec (.trap 0x22#8) s = exec .puts s ∧ exec (.trap 0x23#8) s = exec .inChar s ∧
    exec (.trap 0x24#8) s = exec .putsp s ∧ exec (.trap 0x25#8) s = exec .halt s) ∧
  (∀ (v : BitVec 8) (s : State), (v.toNat < 0x20 ∨ 0x25 < v.toNat) →
    exec (.trap v) s = .next ((s.setReg .r7 s.pc).undefinedTrap v)) ∧
  (∀ (v : BitVec 8) (s : State), ∃ t, exec (.trap v) s = .next t ∧ t.reg .r7 = s.pc ∧ t.pc = s.pc)

/-- GETC (R211): with a byte at the console, R0 is the zero-extended byte, COND ZRO for 0x00 and POS otherwise, nothing is echoed,
KBSR and KBDR stay; if no byte comes the core is left waiting, R0 and COND unchanged. R7 is PC' in both cases. That the console's answer
stands in `env`, and the state an unanswered read leaves, are the model's choice (log 3). -/
def Obligations.GetcReadsOneCharacter : Prop :=
  ∀ s : State,
    (∀ b, s.conAnswer = some b → ∃ t, exec .getc s = .next t ∧ t.reg .r0 = zext8 b ∧
      t.cond = (if b = 0x00#8 then ZRO else POS) ∧ t.reg .r7 = s.pc ∧ SameRegsBut [.r0, .r7] s t ∧ t.pc = s.pc ∧
      SameMem s t ∧ t.events = s.events ++ [.conRead b] ∧ t.env = s.conTaken ∧ SameControl s t ∧ t.activity = .idle) ∧
    (s.conAnswer = none → ∃ t, exec .getc s = .next t ∧ t.activity = .consoleWait .getc ∧ t.cond = s.cond ∧
      t.reg .r7 = s.pc ∧ SameRegsBut [.r7] s t ∧ t.pc = s.pc ∧ SameMem s t ∧ t.events = s.events ∧ t.env = s.conTaken ∧
      SameControl s t)

/-- OUT (R212): the low byte of R0 is written, then flushed; only R7 changes. -/
def Obligations.OutWritesTheLowByte : Prop :=
  ∀ s : State, ∃ t, exec .out s = .next t ∧
    t.events = s.events ++ [.conWrite ((s.reg .r0).setWidth 8), .conFlush] ∧
    t.reg .r7 = s.pc ∧ SameRegsBut [.r7] s t ∧ t.pc = s.pc ∧ t.cond = s.cond ∧ SameMem s t ∧ t.env = s.env ∧
    SameRest s t

/-- PUTS (R213): the low bytes of the words from R0 on, up to the first whole zero word, are written in order, then flushed;
addresses wrap, no poll is made, only R7 changes. -/
def Obligations.PutsWritesTheString : Prop :=
  ∀ (s : State) (n : Nat), n < 65536 →
    (∀ k < n, s.rawRead (s.reg .r0 + BitVec.ofNat 16 k) ≠ 0x0000#16) →
    s.rawRead (s.reg .r0 + BitVec.ofNat 16 n) = 0x0000#16 →
    ∃ t, exec .puts s = .next t ∧
      t.events = s.events ++
        ((List.range n).map fun k => .conWrite ((s.rawRead (s.reg .r0 + BitVec.ofNat 16 k)).setWidth 8)) ++ [.conFlush] ∧
      t.reg .r7 = s.pc ∧ SameRegsBut [.r7] s t ∧ t.pc = s.pc ∧ t.cond = s.cond ∧ SameMem s t ∧ t.env = s.env ∧
      SameRest s t

/-- IN (R214): the prompt is written, then, with a byte at the console, the byte is echoed and flushed, R0 is the zero-extended
byte, COND ZRO for 0x00 and POS otherwise; if no byte comes the core is left waiting after the prompt. R7 is PC' in both cases. That the
console's answer stands in `env`, and the state an unanswered read leaves, are the model's choice (log 3). -/
def Obligations.InPromptsReadsAndEchoes : Prop :=
  ∀ s : State,
    (∀ b, s.conAnswer = some b → ∃ t, exec .inChar s = .next t ∧ t.reg .r0 = zext8 b ∧
      t.cond = (if b = 0x00#8 then ZRO else POS) ∧ t.reg .r7 = s.pc ∧ SameRegsBut [.r0, .r7] s t ∧ t.pc = s.pc ∧
      SameMem s t ∧
      t.events = s.events ++ s.params.inPrompt.map .conWrite ++ [.conRead b, .conWrite b, .conFlush] ∧
      t.env = s.conTaken ∧ SameControl s t ∧ t.activity = .idle) ∧
    (s.conAnswer = none → ∃ t, exec .inChar s = .next t ∧ t.activity = .consoleWait .inChar ∧ t.cond = s.cond ∧
      t.reg .r7 = s.pc ∧ SameRegsBut [.r7] s t ∧ t.pc = s.pc ∧ SameMem s t ∧
      t.events = s.events ++ s.params.inPrompt.map .conWrite ∧ t.env = s.conTaken ∧ SameControl s t)

/-- PUTSP (R215): of each word up to the first whole zero word the low byte is written, always, then the high byte if it is not
zero; then a flush; only R7 changes. -/
def Obligations.PutspWritesThePackedString : Prop :=
  ∀ (s : State) (n : Nat), n < 65536 →
    (∀ k < n, s.rawRead (s.reg .r0 + BitVec.ofNat 16 k) ≠ 0x0000#16) →
    s.rawRead (s.reg .r0 + BitVec.ofNat 16 n) = 0x0000#16 →
    ∃ t, exec .putsp s = .next t ∧
      t.events = s.events ++
        ((List.range n).flatMap fun k =>
          let w := s.rawRead (s.reg .r0 + BitVec.ofNat 16 k)
          .conWrite (w.setWidth 8) :: (if w >>> 8 = 0x0000#16 then [] else [.conWrite ((w >>> 8).setWidth 8)])) ++
        [.conFlush] ∧
      t.reg .r7 = s.pc ∧ SameRegsBut [.r7] s t ∧ t.pc = s.pc ∧ t.cond = s.cond ∧ SameMem s t ∧ t.env = s.env ∧
      SameRest s t

/-- HALT (R216): the notice is written, then flushed, and the run is Halted with the mark HaltTrap; R7 and PC are PC', everything
else stays. -/
def Obligations.HaltEndsTheRunGracefully : Prop :=
  ∀ s : State, ∃ t, exec .halt s = .next t ∧ t.run = .halted .haltTrap ∧
    t.events = s.events ++ s.params.haltNotice.map .conWrite ++ [.conFlush] ∧
    t.reg .r7 = s.pc ∧ SameRegsBut [.r7] s t ∧ t.pc = s.pc ∧ t.cond = s.cond ∧ SameMem s t ∧ t.env = s.env ∧
    t.activity = s.activity ∧ t.cancelPending = s.cancelPending ∧ t.ir = s.ir ∧ t.params = s.params

/-- A vector outside 0x20 to 0x25 (R217): R7 is PC'; under `abort` the run is Aborted with that vector, under `noop` it goes on;
nothing else changes. -/
def Obligations.UndefinedVectorFollowsThePolicy : Prop :=
  ∀ (v : BitVec 8) (s : State), (v.toNat < 0x20 ∨ 0x25 < v.toNat) →
    ∃ t, exec (.trap v) s = .next t ∧
      (s.params.undefinedTrapPolicy = .abort → t.run = .aborted (.undefinedTrap v)) ∧
      (s.params.undefinedTrapPolicy = .noop → t.run = s.run) ∧
      t.reg .r7 = s.pc ∧ SameRegsBut [.r7] s t ∧ t.pc = s.pc ∧ t.cond = s.cond ∧ SameMem s t ∧ SamePorts s t ∧
      t.activity = s.activity ∧ t.cancelPending = s.cancelPending ∧ t.ir = s.ir ∧ t.params = s.params

/-- A PUTS or PUTSP with no zero word anywhere in memory never ends: it is entered with R7 = PC' and all else as it was, no number of
steps leaves it or changes anything, and what it shows on the ports is without end, the bytes of every word in turn, addresses
wrapping, so at least n of them in n turns; with a zero word anywhere the routine completes with a flush (R218, the spec's decision D8
and its own inference "[derived: from rule R213, rule R215 and 20_memory.md rule R77; ...]"). How the step that never completes and its output
are held is the model's choice (log 8). -/
def Obligations.StringWithoutTerminatorNeverEnds : Prop :=
  (∀ s : State, (∀ a, s.rawRead a ≠ 0x0000#16) →
    (∃ t, exec .puts s = .next t ∧ t.activity = .stringLoop .puts (s.reg .r0) ∧ t.reg .r7 = s.pc ∧ SameRegsBut [.r7] s t ∧
      t.pc = s.pc ∧ t.cond = s.cond ∧ t.mem = s.mem ∧ SamePorts s t ∧ SameControl s t) ∧
    (∃ t, exec .putsp s = .next t ∧ t.activity = .stringLoop .putsp (s.reg .r0) ∧ t.reg .r7 = s.pc ∧ SameRegsBut [.r7] s t ∧
      t.pc = s.pc ∧ t.cond = s.cond ∧ t.mem = s.mem ∧ SamePorts s t ∧ SameControl s t)) ∧
  (∀ (k : Nat) (s : State) (kind : StringKind) (a : Word), s.run = .running → s.activity = .stringLoop kind a →
    Host.Core.run Sys2Proof.core k s = .next s) ∧
  (∀ (s : State) (kind : StringKind) (a : Word) (n : Nat), s.activity = .stringLoop kind a →
    s.observed 0 = s.events ∧
    s.observed (n + 1) = s.observed n ++
      (match kind with
        | .puts => [.conWrite ((s.rawRead (a + BitVec.ofNat 16 n)).setWidth 8)]
        | .putsp =>
          let w := s.rawRead (a + BitVec.ofNat 16 n)
          .conWrite (w.setWidth 8) :: (if w >>> 8 = 0x0000#16 then [] else [.conWrite ((w >>> 8).setWidth 8)])) ∧
    s.events.length + n ≤ (s.observed n).length) ∧
  (∀ s : State, (∃ a, s.rawRead a = 0x0000#16) →
    (∃ t es, exec .puts s = .next t ∧ t.activity = s.activity ∧ t.events = s.events ++ es ++ [.conFlush]) ∧
    (∃ t es, exec .putsp s = .next t ∧ t.activity = s.activity ∧ t.events = s.events ++ es ++ [.conFlush]))

/-! ## Aborting opcodes (46_reserved.md) -/

/-- RES and RTI (R230, R231): every word of opcode 0xD or 0x8 ends the run with its fatal abort, never as a halt, writes no
output, and changes nothing else. -/
def Obligations.ResAndRtiAbortTheRun : Prop :=
  (∀ ir : Word, (fieldOpcode ir = 0xD#4 → decode ir = .res) ∧ (fieldOpcode ir = 0x8#4 → decode ir = .rti)) ∧
  (∀ s : State, ∃ t, exec .res s = .next t ∧ t.run = .aborted .reservedOpcode ∧ SameRegsBut [] s t ∧ t.pc = s.pc ∧
    t.cond = s.cond ∧ SameMem s t ∧ SamePorts s t ∧ t.activity = s.activity ∧ t.cancelPending = s.cancelPending ∧
    t.ir = s.ir ∧ t.params = s.params) ∧
  (∀ s : State, ∃ t, exec .rti s = .next t ∧ t.run = .aborted .rtiOpcode ∧ SameRegsBut [] s t ∧ t.pc = s.pc ∧
    t.cond = s.cond ∧ SameMem s t ∧ SamePorts s t ∧ t.activity = s.activity ∧ t.cancelPending = s.cancelPending ∧
    t.ir = s.ir ∧ t.params = s.params)
end

