-- ==== Sys2Proof/Laws/Encoding.lean ====
section
/-!
SUPPORT. The small lemmas of the encoding: register fields, a placed field's bits, and the bits of an encoded word.
-/

namespace Sys2Proof.Laws

@[simp] theorem ofBits_toBits (r : Reg) : Reg.ofBits r.toBits = r := by
  cases r <;> rfl

@[simp] theorem toBits_ofBits (b : BitVec 3) : (Reg.ofBits b).toBits = b := by
  revert b
  decide

/-- Bit k of a placed field is bit k - lo of the field. -/
theorem place_getLsbD {n : Nat} (field : BitVec n) (lo k : Nat) :
    (place field lo).getLsbD k = (decide (k < 16) && decide (lo ≤ k) && field.getLsbD (k - lo)) := by
  by_cases hk : k < 16
  · by_cases hl : lo ≤ k
    · simp [place, hk, hl, Nat.not_lt.mpr hl]
    · simp [place, hk, hl, Nat.lt_of_not_le hl]
  · simp [place, hk]

/-- A word's register field at 11:9 is r exactly when its bits are r's. -/
theorem fieldR9_of_bits {ir : Word} {r : Reg} (h : ir.extractLsb' 9 3 = r.toBits) : fieldR9 ir = r := by
  simp [fieldR9, h]

theorem fieldR6_of_bits {ir : Word} {r : Reg} (h : ir.extractLsb' 6 3 = r.toBits) : fieldR6 ir = r := by
  simp [fieldR6, h]

theorem fieldR0_of_bits {ir : Word} {r : Reg} (h : ir.extractLsb' 0 3 = r.toBits) : fieldR0 ir = r := by
  simp [fieldR0, h]

end Sys2Proof.Laws
end

