-- ==== Sys2Proof/Laws/Memory.lean ====
section
/-!
SUPPORT. The memory cells: what a byte and a word read after a write, and that every write keeps the canonical form.
-/

namespace Sys2Proof.Laws

open Sys2Proof.Machine

/-! ## Bytes -/

theorem byteAt_of_no_key {m : List Host.Cell} {k : Nat} (h : ∀ e ∈ m, e.1 ≠ k) : byteAt m k = 0#8 := by
  induction m with
  | nil => rfl
  | cons e m ih =>
    obtain ⟨k', v⟩ := e
    have hk : k' ≠ k := h (k', v) (by simp)
    simp only [byteAt, if_neg hk]
    exact ih fun e he => h e (by simp [he])

theorem eraseByte_no_key (k : Nat) (m : List Host.Cell) : ∀ e ∈ eraseByte k m, e.1 ≠ k := by
  induction m with
  | nil => simp [eraseByte]
  | cons e m ih =>
    obtain ⟨k', v⟩ := e
    by_cases hk : k' = k
    · simpa [eraseByte, hk] using ih
    · simpa [eraseByte, hk] using ih

theorem byteAt_eraseByte_of_ne {j k : Nat} (h : j ≠ k) (m : List Host.Cell) : byteAt (eraseByte k m) j = byteAt m j := by
  induction m with
  | nil => rfl
  | cons e m ih =>
    obtain ⟨k', v⟩ := e
    by_cases hk : k' = k
    · simp [eraseByte, hk, byteAt, Ne.symm h, ih]
    · by_cases hj : k' = j <;> simp [eraseByte, hk, byteAt, hj, ih, h]

theorem byteAt_insertByte_self {k : Nat} (v : Byte) {m : List Host.Cell} (h : ∀ e ∈ m, e.1 ≠ k) :
    byteAt (insertByte k v m) k = v := by
  induction m with
  | nil => simp [insertByte, byteAt]
  | cons e m ih =>
    obtain ⟨k', v'⟩ := e
    have hk : k' ≠ k := h (k', v') (by simp)
    by_cases hlt : k < k'
    · simp [insertByte, hlt, byteAt]
    · simp [insertByte, hlt, byteAt, hk]
      exact ih fun e he => h e (by simp [he])

theorem byteAt_insertByte_of_ne {j k : Nat} (h : j ≠ k) (v : Byte) (m : List Host.Cell) :
    byteAt (insertByte k v m) j = byteAt m j := by
  induction m with
  | nil => simp [insertByte, byteAt, Ne.symm h]
  | cons e m ih =>
    obtain ⟨k', v'⟩ := e
    by_cases hlt : k < k' <;> simp [insertByte, hlt, byteAt, Ne.symm h, ih]

/-- A byte write sets the byte under its key and leaves every other key alone. -/
theorem byteAt_setByte (k : Nat) (v : Byte) (m : List Host.Cell) (j : Nat) :
    byteAt (setByte k v m) j = if j = k then v else byteAt m j := by
  have gone := eraseByte_no_key k m
  by_cases hj : j = k
  · subst hj
    by_cases hv : v = 0#8
    · simp [setByte, hv, byteAt_of_no_key gone]
    · simp [setByte, hv, byteAt_insertByte_self v gone]
  · by_cases hv : v = 0#8
    · simp [setByte, hv, hj, byteAt_eraseByte_of_ne hj]
    · simp [setByte, hv, hj, byteAt_insertByte_of_ne hj, byteAt_eraseByte_of_ne hj]

/-! ## Words -/

theorem joinBytes_getLsbD (hi lo : Byte) (i : Nat) :
    (joinBytes hi lo).getLsbD i = if i < 8 then lo.getLsbD i else hi.getLsbD (i - 8) := by
  have h : joinBytes hi lo = (hi ++ lo : BitVec (8 + 8)) := rfl
  rw [h, BitVec.getLsbD_append]

@[simp] theorem lowByte_joinBytes (hi lo : Byte) : lowByte (joinBytes hi lo) = lo := by
  apply BitVec.eq_of_getLsbD_eq
  intro i hi
  simp [lowByte, joinBytes_getLsbD, hi]

@[simp] theorem highByte_joinBytes (hi lo : Byte) : highByte (joinBytes hi lo) = hi := by
  apply BitVec.eq_of_getLsbD_eq
  intro i hi
  simp [highByte, joinBytes_getLsbD, hi]

@[simp] theorem joinBytes_highByte_lowByte (v : Word) : joinBytes (highByte v) (lowByte v) = v := by
  apply BitVec.eq_of_getLsbD_eq
  intro i hi
  rw [joinBytes_getLsbD]
  by_cases h : i < 8
  · simp [h, lowByte]
  · have h8 : i - 8 < 8 := by omega
    have back : 8 + (i - 8) = i := by omega
    simp [h, highByte, h8, back]

/-- A word write sets its cell and leaves every other cell alone. -/
theorem wordAt_setWord (a v : Word) (m : List Host.Cell) (b : Word) :
    wordAt (setWord a v m) b = if b = a then v else wordAt m b := by
  by_cases h : b = a
  · subst h
    have h1 : 2 * b.toNat ≠ 2 * b.toNat + 1 := by omega
    simp [wordAt, setWord, byteAt_setByte]
  · have hn : b.toNat ≠ a.toNat := fun e => h (BitVec.eq_of_toNat_eq e)
    have h1 : 2 * b.toNat + 1 ≠ 2 * a.toNat + 1 := by omega
    have h2 : 2 * b.toNat + 1 ≠ 2 * a.toNat := by omega
    have h3 : 2 * b.toNat ≠ 2 * a.toNat + 1 := by omega
    have h4 : 2 * b.toNat ≠ 2 * a.toNat := by omega
    simp [wordAt, setWord, byteAt_setByte, h, h2, h3, hn]

@[simp] theorem wordAt_setWord_self (a v : Word) (m : List Host.Cell) : wordAt (setWord a v m) a = v := by
  simp [wordAt_setWord]

theorem wordAt_setWord_of_ne {a b : Word} (h : b ≠ a) (v : Word) (m : List Host.Cell) :
    wordAt (setWord a v m) b = wordAt m b := by
  simp [wordAt_setWord, h]

/-! ## The canonical form -/

theorem wfFrom_mono {lo lo' : Nat} (h : lo' ≤ lo) {m : List Host.Cell} (hm : Memory.wfFrom lo m = true) :
    Memory.wfFrom lo' m = true := by
  cases m with
  | nil => rfl
  | cons e m =>
    obtain ⟨k, v⟩ := e
    simp only [Memory.wfFrom, Bool.and_eq_true, decide_eq_true_eq] at hm ⊢
    exact ⟨⟨⟨by omega, hm.1.1.2⟩, hm.1.2⟩, hm.2⟩

theorem wfFrom_eraseByte (k : Nat) {lo : Nat} {m : List Host.Cell} (hm : Memory.wfFrom lo m = true) :
    Memory.wfFrom lo (eraseByte k m) = true := by
  induction m generalizing lo with
  | nil => rfl
  | cons e m ih =>
    obtain ⟨k', v⟩ := e
    simp only [Memory.wfFrom, Bool.and_eq_true, decide_eq_true_eq] at hm
    by_cases hk : k' = k
    · simp only [eraseByte, if_pos hk]
      exact ih (wfFrom_mono (by omega) hm.2)
    · simp only [eraseByte, if_neg hk, Memory.wfFrom, Bool.and_eq_true, decide_eq_true_eq]
      exact ⟨hm.1, ih hm.2⟩

theorem wfFrom_insertByte {k lo : Nat} {v : Byte} (hv : v ≠ 0#8) (hk : k < 131072) (hlo : lo ≤ k) {m : List Host.Cell}
    (gone : ∀ e ∈ m, e.1 ≠ k) (hm : Memory.wfFrom lo m = true) : Memory.wfFrom lo (insertByte k v m) = true := by
  induction m generalizing lo with
  | nil => simp [insertByte, Memory.wfFrom, hv, hk, hlo]
  | cons e m ih =>
    obtain ⟨k', v'⟩ := e
    have hne : k' ≠ k := gone (k', v') (by simp)
    simp only [Memory.wfFrom, Bool.and_eq_true, decide_eq_true_eq] at hm
    by_cases hlt : k < k'
    · simp only [insertByte, if_pos hlt, Memory.wfFrom, Bool.and_eq_true, decide_eq_true_eq]
      exact ⟨⟨⟨hlo, hk⟩, by simp [hv]⟩, ⟨⟨by omega, hm.1.1.2⟩, hm.1.2⟩, hm.2⟩
    · simp only [insertByte, if_neg hlt, Memory.wfFrom, Bool.and_eq_true, decide_eq_true_eq]
      exact ⟨hm.1, ih (by omega) (fun e he => gone e (by simp [he])) hm.2⟩

/-- Every byte write keeps the canonical form. -/
theorem wf_setByte {k : Nat} (hk : k < 131072) (v : Byte) {m : List Host.Cell} (hm : Memory.wf m = true) :
    Memory.wf (setByte k v m) = true := by
  by_cases hv : v = 0#8
  · simpa [setByte, hv, Memory.wf] using wfFrom_eraseByte k hm
  · simpa [setByte, hv, Memory.wf] using
      wfFrom_insertByte hv hk (Nat.zero_le k) (eraseByte_no_key k m) (wfFrom_eraseByte k hm)

/-- Every word write keeps the canonical form. -/
theorem wf_setWord (a v : Word) {m : List Host.Cell} (hm : Memory.wf m = true) : Memory.wf (setWord a v m) = true := by
  have ha := a.isLt
  exact wf_setByte (by omega) _ (wf_setByte (by omega) _ hm)

theorem reset_memory_wf : Memory.wf State.reset.mem = true := rfl

end Sys2Proof.Laws
end

