-- ==== Sys2Proof/Laws/State.lean ====
section
/-!
SUPPORT. For each update of a field of the state, what every field of the updated state is: one lemma per field per update, so that
no proof unfolds a record update.
-/

namespace Sys2Proof.Laws

open Sys2Proof.Machine

@[simp] theorem setRegs_regs (s : State) (x : Regs) : (s.setRegs x).regs = x := rfl
@[simp] theorem setRegs_pc (s : State) (x : Regs) : (s.setRegs x).pc = s.pc := rfl
@[simp] theorem setRegs_cond (s : State) (x : Regs) : (s.setRegs x).cond = s.cond := rfl
@[simp] theorem setRegs_mem (s : State) (x : Regs) : (s.setRegs x).mem = s.mem := rfl
@[simp] theorem setRegs_run (s : State) (x : Regs) : (s.setRegs x).run = s.run := rfl
@[simp] theorem setRegs_activity (s : State) (x : Regs) : (s.setRegs x).activity = s.activity := rfl
@[simp] theorem setRegs_cancelPending (s : State) (x : Regs) : (s.setRegs x).cancelPending = s.cancelPending := rfl
@[simp] theorem setRegs_ir (s : State) (x : Regs) : (s.setRegs x).ir = s.ir := rfl
@[simp] theorem setRegs_events (s : State) (x : Regs) : (s.setRegs x).events = s.events := rfl
@[simp] theorem setRegs_params (s : State) (x : Regs) : (s.setRegs x).params = s.params := rfl
@[simp] theorem setRegs_env (s : State) (x : Regs) : (s.setRegs x).env = s.env := rfl

@[simp] theorem setPc_regs (s : State) (v : Word) : (s.setPc v).regs = s.regs := rfl
@[simp] theorem setPc_pc (s : State) (v : Word) : (s.setPc v).pc = v := rfl
@[simp] theorem setPc_cond (s : State) (v : Word) : (s.setPc v).cond = s.cond := rfl
@[simp] theorem setPc_mem (s : State) (v : Word) : (s.setPc v).mem = s.mem := rfl
@[simp] theorem setPc_run (s : State) (v : Word) : (s.setPc v).run = s.run := rfl
@[simp] theorem setPc_activity (s : State) (v : Word) : (s.setPc v).activity = s.activity := rfl
@[simp] theorem setPc_cancelPending (s : State) (v : Word) : (s.setPc v).cancelPending = s.cancelPending := rfl
@[simp] theorem setPc_ir (s : State) (v : Word) : (s.setPc v).ir = s.ir := rfl
@[simp] theorem setPc_events (s : State) (v : Word) : (s.setPc v).events = s.events := rfl
@[simp] theorem setPc_params (s : State) (v : Word) : (s.setPc v).params = s.params := rfl
@[simp] theorem setPc_env (s : State) (v : Word) : (s.setPc v).env = s.env := rfl

@[simp] theorem setCond_regs (s : State) (v : Word) : (s.setCond v).regs = s.regs := rfl
@[simp] theorem setCond_pc (s : State) (v : Word) : (s.setCond v).pc = s.pc := rfl
@[simp] theorem setCond_cond (s : State) (v : Word) : (s.setCond v).cond = v := rfl
@[simp] theorem setCond_mem (s : State) (v : Word) : (s.setCond v).mem = s.mem := rfl
@[simp] theorem setCond_run (s : State) (v : Word) : (s.setCond v).run = s.run := rfl
@[simp] theorem setCond_activity (s : State) (v : Word) : (s.setCond v).activity = s.activity := rfl
@[simp] theorem setCond_cancelPending (s : State) (v : Word) : (s.setCond v).cancelPending = s.cancelPending := rfl
@[simp] theorem setCond_ir (s : State) (v : Word) : (s.setCond v).ir = s.ir := rfl
@[simp] theorem setCond_events (s : State) (v : Word) : (s.setCond v).events = s.events := rfl
@[simp] theorem setCond_params (s : State) (v : Word) : (s.setCond v).params = s.params := rfl
@[simp] theorem setCond_env (s : State) (v : Word) : (s.setCond v).env = s.env := rfl

@[simp] theorem setMem_regs (s : State) (m : List Host.Cell) : (s.setMem m).regs = s.regs := rfl
@[simp] theorem setMem_pc (s : State) (m : List Host.Cell) : (s.setMem m).pc = s.pc := rfl
@[simp] theorem setMem_cond (s : State) (m : List Host.Cell) : (s.setMem m).cond = s.cond := rfl
@[simp] theorem setMem_mem (s : State) (m : List Host.Cell) : (s.setMem m).mem = m := rfl
@[simp] theorem setMem_run (s : State) (m : List Host.Cell) : (s.setMem m).run = s.run := rfl
@[simp] theorem setMem_activity (s : State) (m : List Host.Cell) : (s.setMem m).activity = s.activity := rfl
@[simp] theorem setMem_cancelPending (s : State) (m : List Host.Cell) : (s.setMem m).cancelPending = s.cancelPending := rfl
@[simp] theorem setMem_ir (s : State) (m : List Host.Cell) : (s.setMem m).ir = s.ir := rfl
@[simp] theorem setMem_events (s : State) (m : List Host.Cell) : (s.setMem m).events = s.events := rfl
@[simp] theorem setMem_params (s : State) (m : List Host.Cell) : (s.setMem m).params = s.params := rfl
@[simp] theorem setMem_env (s : State) (m : List Host.Cell) : (s.setMem m).env = s.env := rfl

@[simp] theorem setRun_regs (s : State) (r : RunState) : (s.setRun r).regs = s.regs := rfl
@[simp] theorem setRun_pc (s : State) (r : RunState) : (s.setRun r).pc = s.pc := rfl
@[simp] theorem setRun_cond (s : State) (r : RunState) : (s.setRun r).cond = s.cond := rfl
@[simp] theorem setRun_mem (s : State) (r : RunState) : (s.setRun r).mem = s.mem := rfl
@[simp] theorem setRun_run (s : State) (r : RunState) : (s.setRun r).run = r := rfl
@[simp] theorem setRun_activity (s : State) (r : RunState) : (s.setRun r).activity = s.activity := rfl
@[simp] theorem setRun_cancelPending (s : State) (r : RunState) : (s.setRun r).cancelPending = s.cancelPending := rfl
@[simp] theorem setRun_ir (s : State) (r : RunState) : (s.setRun r).ir = s.ir := rfl
@[simp] theorem setRun_events (s : State) (r : RunState) : (s.setRun r).events = s.events := rfl
@[simp] theorem setRun_params (s : State) (r : RunState) : (s.setRun r).params = s.params := rfl
@[simp] theorem setRun_env (s : State) (r : RunState) : (s.setRun r).env = s.env := rfl

@[simp] theorem setActivity_regs (s : State) (a : Activity) : (s.setActivity a).regs = s.regs := rfl
@[simp] theorem setActivity_pc (s : State) (a : Activity) : (s.setActivity a).pc = s.pc := rfl
@[simp] theorem setActivity_cond (s : State) (a : Activity) : (s.setActivity a).cond = s.cond := rfl
@[simp] theorem setActivity_mem (s : State) (a : Activity) : (s.setActivity a).mem = s.mem := rfl
@[simp] theorem setActivity_run (s : State) (a : Activity) : (s.setActivity a).run = s.run := rfl
@[simp] theorem setActivity_activity (s : State) (a : Activity) : (s.setActivity a).activity = a := rfl
@[simp] theorem setActivity_cancelPending (s : State) (a : Activity) : (s.setActivity a).cancelPending = s.cancelPending := rfl
@[simp] theorem setActivity_ir (s : State) (a : Activity) : (s.setActivity a).ir = s.ir := rfl
@[simp] theorem setActivity_events (s : State) (a : Activity) : (s.setActivity a).events = s.events := rfl
@[simp] theorem setActivity_params (s : State) (a : Activity) : (s.setActivity a).params = s.params := rfl
@[simp] theorem setActivity_env (s : State) (a : Activity) : (s.setActivity a).env = s.env := rfl

@[simp] theorem setCancelPending_regs (s : State) (b : Bool) : (s.setCancelPending b).regs = s.regs := rfl
@[simp] theorem setCancelPending_pc (s : State) (b : Bool) : (s.setCancelPending b).pc = s.pc := rfl
@[simp] theorem setCancelPending_cond (s : State) (b : Bool) : (s.setCancelPending b).cond = s.cond := rfl
@[simp] theorem setCancelPending_mem (s : State) (b : Bool) : (s.setCancelPending b).mem = s.mem := rfl
@[simp] theorem setCancelPending_run (s : State) (b : Bool) : (s.setCancelPending b).run = s.run := rfl
@[simp] theorem setCancelPending_activity (s : State) (b : Bool) : (s.setCancelPending b).activity = s.activity := rfl
@[simp] theorem setCancelPending_cancelPending (s : State) (b : Bool) : (s.setCancelPending b).cancelPending = b := rfl
@[simp] theorem setCancelPending_ir (s : State) (b : Bool) : (s.setCancelPending b).ir = s.ir := rfl
@[simp] theorem setCancelPending_events (s : State) (b : Bool) : (s.setCancelPending b).events = s.events := rfl
@[simp] theorem setCancelPending_params (s : State) (b : Bool) : (s.setCancelPending b).params = s.params := rfl
@[simp] theorem setCancelPending_env (s : State) (b : Bool) : (s.setCancelPending b).env = s.env := rfl

@[simp] theorem setIr_regs (s : State) (w : Word) : (s.setIr w).regs = s.regs := rfl
@[simp] theorem setIr_pc (s : State) (w : Word) : (s.setIr w).pc = s.pc := rfl
@[simp] theorem setIr_cond (s : State) (w : Word) : (s.setIr w).cond = s.cond := rfl
@[simp] theorem setIr_mem (s : State) (w : Word) : (s.setIr w).mem = s.mem := rfl
@[simp] theorem setIr_run (s : State) (w : Word) : (s.setIr w).run = s.run := rfl
@[simp] theorem setIr_activity (s : State) (w : Word) : (s.setIr w).activity = s.activity := rfl
@[simp] theorem setIr_cancelPending (s : State) (w : Word) : (s.setIr w).cancelPending = s.cancelPending := rfl
@[simp] theorem setIr_ir (s : State) (w : Word) : (s.setIr w).ir = w := rfl
@[simp] theorem setIr_events (s : State) (w : Word) : (s.setIr w).events = s.events := rfl
@[simp] theorem setIr_params (s : State) (w : Word) : (s.setIr w).params = s.params := rfl
@[simp] theorem setIr_env (s : State) (w : Word) : (s.setIr w).env = s.env := rfl

@[simp] theorem addEvents_regs (s : State) (es : List PortEvent) : (s.addEvents es).regs = s.regs := rfl
@[simp] theorem addEvents_pc (s : State) (es : List PortEvent) : (s.addEvents es).pc = s.pc := rfl
@[simp] theorem addEvents_cond (s : State) (es : List PortEvent) : (s.addEvents es).cond = s.cond := rfl
@[simp] theorem addEvents_mem (s : State) (es : List PortEvent) : (s.addEvents es).mem = s.mem := rfl
@[simp] theorem addEvents_run (s : State) (es : List PortEvent) : (s.addEvents es).run = s.run := rfl
@[simp] theorem addEvents_activity (s : State) (es : List PortEvent) : (s.addEvents es).activity = s.activity := rfl
@[simp] theorem addEvents_cancelPending (s : State) (es : List PortEvent) : (s.addEvents es).cancelPending = s.cancelPending := rfl
@[simp] theorem addEvents_ir (s : State) (es : List PortEvent) : (s.addEvents es).ir = s.ir := rfl
@[simp] theorem addEvents_events (s : State) (es : List PortEvent) : (s.addEvents es).events = s.events ++ es := rfl
@[simp] theorem addEvents_params (s : State) (es : List PortEvent) : (s.addEvents es).params = s.params := rfl
@[simp] theorem addEvents_env (s : State) (es : List PortEvent) : (s.addEvents es).env = s.env := rfl

@[simp] theorem setEnv_regs (s : State) (e : Env) : (s.setEnv e).regs = s.regs := rfl
@[simp] theorem setEnv_pc (s : State) (e : Env) : (s.setEnv e).pc = s.pc := rfl
@[simp] theorem setEnv_cond (s : State) (e : Env) : (s.setEnv e).cond = s.cond := rfl
@[simp] theorem setEnv_mem (s : State) (e : Env) : (s.setEnv e).mem = s.mem := rfl
@[simp] theorem setEnv_run (s : State) (e : Env) : (s.setEnv e).run = s.run := rfl
@[simp] theorem setEnv_activity (s : State) (e : Env) : (s.setEnv e).activity = s.activity := rfl
@[simp] theorem setEnv_cancelPending (s : State) (e : Env) : (s.setEnv e).cancelPending = s.cancelPending := rfl
@[simp] theorem setEnv_ir (s : State) (e : Env) : (s.setEnv e).ir = s.ir := rfl
@[simp] theorem setEnv_events (s : State) (e : Env) : (s.setEnv e).events = s.events := rfl
@[simp] theorem setEnv_params (s : State) (e : Env) : (s.setEnv e).params = s.params := rfl
@[simp] theorem setEnv_env (s : State) (e : Env) : (s.setEnv e).env = e := rfl

end Sys2Proof.Laws
end

