-- ==== Sys2Proof/Laws/Ops.lean ====
section
/-!
SUPPORT. One lemma, or one per field, for each shared operation: everything the operation can do. Proofs cite these and do not unfold
the operations.
-/

namespace Sys2Proof.Laws

open Sys2Proof.Machine

/-! ## Registers -/

@[simp] theorem regs_get_set_self (x : Regs) (r : Reg) (v : Word) : (x.set r v).get r = v := by
  cases r <;> rfl

theorem regs_get_set_of_ne {q r : Reg} (h : q ≠ r) (x : Regs) (v : Word) : (x.set r v).get q = x.get q := by
  cases q <;> cases r <;> first | rfl | exact absurd rfl h

theorem regs_get_set (x : Regs) (r q : Reg) (v : Word) : (x.set r v).get q = if q = r then v else x.get q := by
  by_cases h : q = r
  · simp [h]
  · simp [h, regs_get_set_of_ne h]

@[simp] theorem regs_set_set (x : Regs) (r : Reg) (v w : Word) : (x.set r v).set r w = x.set r w := by
  cases r <;> rfl

/-- Two register files that read the same are the same. -/
theorem regs_ext {x y : Regs} (h : ∀ r, x.get r = y.get r) : x = y := by
  cases x
  cases y
  have h0 := h .r0
  have h1 := h .r1
  have h2 := h .r2
  have h3 := h .r3
  have h4 := h .r4
  have h5 := h .r5
  have h6 := h .r6
  have h7 := h .r7
  simp_all [Regs.get]

/-! ## Reads of a state -/

@[simp] theorem reg_setRegs (s : State) (x : Regs) (r : Reg) : (s.setRegs x).reg r = x.get r := rfl
@[simp] theorem reg_setPc (s : State) (v : Word) (r : Reg) : (s.setPc v).reg r = s.reg r := rfl
@[simp] theorem reg_setCond (s : State) (v : Word) (r : Reg) : (s.setCond v).reg r = s.reg r := rfl
@[simp] theorem reg_setMem (s : State) (m : List Host.Cell) (r : Reg) : (s.setMem m).reg r = s.reg r := rfl
@[simp] theorem reg_setRun (s : State) (x : RunState) (r : Reg) : (s.setRun x).reg r = s.reg r := rfl
@[simp] theorem reg_setActivity (s : State) (a : Activity) (r : Reg) : (s.setActivity a).reg r = s.reg r := rfl
@[simp] theorem reg_setCancelPending (s : State) (b : Bool) (r : Reg) : (s.setCancelPending b).reg r = s.reg r := rfl
@[simp] theorem reg_setIr (s : State) (w : Word) (r : Reg) : (s.setIr w).reg r = s.reg r := rfl
@[simp] theorem reg_addEvents (s : State) (es : List PortEvent) (r : Reg) : (s.addEvents es).reg r = s.reg r := rfl
@[simp] theorem reg_setEnv (s : State) (e : Env) (r : Reg) : (s.setEnv e).reg r = s.reg r := rfl

@[simp] theorem rawRead_setRegs (s : State) (x : Regs) (a : Word) : (s.setRegs x).rawRead a = s.rawRead a := rfl
@[simp] theorem rawRead_setPc (s : State) (v a : Word) : (s.setPc v).rawRead a = s.rawRead a := rfl
@[simp] theorem rawRead_setCond (s : State) (v a : Word) : (s.setCond v).rawRead a = s.rawRead a := rfl
@[simp] theorem rawRead_setMem (s : State) (m : List Host.Cell) (a : Word) : (s.setMem m).rawRead a = wordAt m a := rfl
@[simp] theorem rawRead_setRun (s : State) (x : RunState) (a : Word) : (s.setRun x).rawRead a = s.rawRead a := rfl
@[simp] theorem rawRead_setActivity (s : State) (x : Activity) (a : Word) : (s.setActivity x).rawRead a = s.rawRead a := rfl
@[simp] theorem rawRead_setCancelPending (s : State) (b : Bool) (a : Word) :
    (s.setCancelPending b).rawRead a = s.rawRead a := rfl
@[simp] theorem rawRead_setIr (s : State) (w a : Word) : (s.setIr w).rawRead a = s.rawRead a := rfl
@[simp] theorem rawRead_addEvents (s : State) (es : List PortEvent) (a : Word) :
    (s.addEvents es).rawRead a = s.rawRead a := rfl
@[simp] theorem rawRead_setEnv (s : State) (e : Env) (a : Word) : (s.setEnv e).rawRead a = s.rawRead a := rfl

/-! ## Register writes -/

theorem reg_setReg (s : State) (r q : Reg) (v : Word) : (s.setReg r v).reg q = if q = r then v else s.reg q :=
  regs_get_set s.regs r q v

@[simp] theorem reg_setReg_self (s : State) (r : Reg) (v : Word) : (s.setReg r v).reg r = v := by
  simp [reg_setReg]

theorem reg_setReg_of_ne {q r : Reg} (h : q ≠ r) (s : State) (v : Word) : (s.setReg r v).reg q = s.reg q := by
  simp [reg_setReg, h]

/-- What `writeDest` does: the register takes the value and COND its condition code; nothing else changes. -/
theorem writeDest_eq (s : State) (r : Reg) (v : Word) :
    s.writeDest r v = (s.setRegs (s.regs.set r v)).setCond (condOf v) := by
  simp [State.writeDest, State.setcc, State.setReg]

theorem reg_writeDest (s : State) (r q : Reg) (v : Word) :
    (s.writeDest r v).reg q = if q = r then v else s.reg q := by
  simp [writeDest_eq, State.reg, regs_get_set]

@[simp] theorem reg_writeDest_self (s : State) (r : Reg) (v : Word) : (s.writeDest r v).reg r = v := by
  simp [reg_writeDest]

@[simp] theorem writeDest_cond (s : State) (r : Reg) (v : Word) : (s.writeDest r v).cond = condOf v := by
  simp [writeDest_eq]

@[simp] theorem writeDest_pc (s : State) (r : Reg) (v : Word) : (s.writeDest r v).pc = s.pc := rfl
@[simp] theorem writeDest_mem (s : State) (r : Reg) (v : Word) : (s.writeDest r v).mem = s.mem := rfl
@[simp] theorem writeDest_run (s : State) (r : Reg) (v : Word) : (s.writeDest r v).run = s.run := rfl
@[simp] theorem writeDest_activity (s : State) (r : Reg) (v : Word) : (s.writeDest r v).activity = s.activity := rfl
@[simp] theorem writeDest_cancelPending (s : State) (r : Reg) (v : Word) :
    (s.writeDest r v).cancelPending = s.cancelPending := rfl
@[simp] theorem writeDest_ir (s : State) (r : Reg) (v : Word) : (s.writeDest r v).ir = s.ir := rfl
@[simp] theorem writeDest_events (s : State) (r : Reg) (v : Word) : (s.writeDest r v).events = s.events := rfl
@[simp] theorem writeDest_params (s : State) (r : Reg) (v : Word) : (s.writeDest r v).params = s.params := rfl
@[simp] theorem writeDest_env (s : State) (r : Reg) (v : Word) : (s.writeDest r v).env = s.env := rfl
@[simp] theorem rawRead_writeDest (s : State) (r : Reg) (v a : Word) : (s.writeDest r v).rawRead a = s.rawRead a := rfl

/-- What `link` does: R7 takes the value of PC; nothing else changes, COND neither. -/
theorem link_eq (s : State) : s.link = s.setRegs (s.regs.set .r7 s.pc) := rfl

theorem reg_link (s : State) (q : Reg) : s.link.reg q = if q = .r7 then s.pc else s.reg q :=
  reg_setReg s .r7 q s.pc

@[simp] theorem link_pc (s : State) : s.link.pc = s.pc := rfl
@[simp] theorem link_cond (s : State) : s.link.cond = s.cond := rfl
@[simp] theorem link_mem (s : State) : s.link.mem = s.mem := rfl
@[simp] theorem link_run (s : State) : s.link.run = s.run := rfl
@[simp] theorem link_activity (s : State) : s.link.activity = s.activity := rfl
@[simp] theorem link_cancelPending (s : State) : s.link.cancelPending = s.cancelPending := rfl
@[simp] theorem link_ir (s : State) : s.link.ir = s.ir := rfl
@[simp] theorem link_events (s : State) : s.link.events = s.events := rfl
@[simp] theorem link_params (s : State) : s.link.params = s.params := rfl
@[simp] theorem link_env (s : State) : s.link.env = s.env := rfl
@[simp] theorem rawRead_link (s : State) (a : Word) : s.link.rawRead a = s.rawRead a := rfl
@[simp] theorem kbdAnswer_link (s : State) : s.link.kbdAnswer = s.kbdAnswer := rfl
@[simp] theorem conAnswer_link (s : State) : s.link.conAnswer = s.conAnswer := rfl
@[simp] theorem conTaken_link (s : State) : s.link.conTaken = s.conTaken := rfl

/-! ## Memory writes and reads -/

theorem rawRead_memWrite (s : State) (a v b : Word) : (s.memWrite a v).rawRead b = if b = a then v else s.rawRead b :=
  wordAt_setWord a v s.mem b

@[simp] theorem rawRead_memWrite_self (s : State) (a v : Word) : (s.memWrite a v).rawRead a = v := by
  simp [rawRead_memWrite]

/-- What `memWrite` does: it changes the memory only. -/
theorem memWrite_eq (s : State) (a v : Word) : s.memWrite a v = s.setMem (setWord a v s.mem) := rfl

/-- What `pollKeyboard` does: it changes memory, events and environment only. -/
theorem pollKeyboard_eq (s : State) :
    s.pollKeyboard =
      match s.kbdAnswer with
      | some c =>
        ((s.setEnv s.kbdTaken).addEvents [.kbdPoll true, .kbdConsume c]).setMem
          (setWord KBDR (zext8 c) (setWord KBSR 0x8000#16 s.mem))
      | none => ((s.setEnv s.kbdTaken).addEvents [.kbdPoll false]).setMem (setWord KBSR 0x0000#16 s.mem) := by
  unfold State.pollKeyboard
  cases s.kbdAnswer <;> rfl

theorem afterRead_of_ne {a : Word} (h : a ≠ KBSR) (s : State) : s.afterRead a = s := by
  simp [State.afterRead, h]

@[simp] theorem afterRead_kbsr (s : State) : s.afterRead KBSR = s.pollKeyboard := by
  simp [State.afterRead]

theorem memRead_of_ne {a : Word} (h : a ≠ KBSR) (s : State) : s.memRead a = s.rawRead a := by
  simp [State.memRead, afterRead_of_ne h]

/-- What the read side of a MemRead can do: it changes memory, events and environment only. -/
theorem afterRead_cases (s : State) (a : Word) : ∃ m es e, s.afterRead a = ((s.setEnv e).addEvents es).setMem m := by
  by_cases h : a = KBSR
  · subst h
    rw [afterRead_kbsr, pollKeyboard_eq]
    cases s.kbdAnswer <;> exact ⟨_, _, _, rfl⟩
  · refine ⟨s.mem, [], s.env, ?_⟩
    rw [afterRead_of_ne h]
    simp [State.setEnv, State.addEvents, State.setMem]

@[simp] theorem afterRead_regs (s : State) (a : Word) : (s.afterRead a).regs = s.regs := by
  obtain ⟨m, es, e, h⟩ := afterRead_cases s a
  simp [h]

@[simp] theorem reg_afterRead (s : State) (a : Word) (r : Reg) : (s.afterRead a).reg r = s.reg r := by
  simp [State.reg]

@[simp] theorem afterRead_pc (s : State) (a : Word) : (s.afterRead a).pc = s.pc := by
  obtain ⟨m, es, e, h⟩ := afterRead_cases s a
  simp [h]

@[simp] theorem afterRead_cond (s : State) (a : Word) : (s.afterRead a).cond = s.cond := by
  obtain ⟨m, es, e, h⟩ := afterRead_cases s a
  simp [h]

@[simp] theorem afterRead_run (s : State) (a : Word) : (s.afterRead a).run = s.run := by
  obtain ⟨m, es, e, h⟩ := afterRead_cases s a
  simp [h]

@[simp] theorem afterRead_activity (s : State) (a : Word) : (s.afterRead a).activity = s.activity := by
  obtain ⟨m, es, e, h⟩ := afterRead_cases s a
  simp [h]

@[simp] theorem afterRead_cancelPending (s : State) (a : Word) : (s.afterRead a).cancelPending = s.cancelPending := by
  obtain ⟨m, es, e, h⟩ := afterRead_cases s a
  simp [h]

@[simp] theorem afterRead_ir (s : State) (a : Word) : (s.afterRead a).ir = s.ir := by
  obtain ⟨m, es, e, h⟩ := afterRead_cases s a
  simp [h]

@[simp] theorem afterRead_params (s : State) (a : Word) : (s.afterRead a).params = s.params := by
  obtain ⟨m, es, e, h⟩ := afterRead_cases s a
  simp [h]

/-- The events of a MemRead are added at the end. -/
theorem afterRead_events (s : State) (a : Word) : ∃ es, (s.afterRead a).events = s.events ++ es := by
  obtain ⟨m, es, e, h⟩ := afterRead_cases s a
  exact ⟨es, by simp [h]⟩

/-- A MemRead takes nothing from the console's answers and does not touch the cancellation. -/
theorem afterRead_env (s : State) (a : Word) :
    (s.afterRead a).env.conIn = s.env.conIn ∧ (s.afterRead a).env.conDraws = s.env.conDraws ∧
      (s.afterRead a).env.cancelIn = s.env.cancelIn := by
  by_cases h : a = KBSR
  · subst h
    rw [afterRead_kbsr, pollKeyboard_eq]
    cases s.kbdAnswer <;> simp only [setMem_env, addEvents_env, setEnv_env] <;> unfold State.kbdTaken <;> split <;> simp
  · simp [afterRead_of_ne h]

/-- A MemRead keeps the canonical form of the memory. -/
theorem wf_afterRead (s : State) (a : Word) (h : Memory.wf s.mem = true) : Memory.wf (s.afterRead a).mem = true := by
  by_cases ha : a = KBSR
  · subst ha
    rw [afterRead_kbsr, pollKeyboard_eq]
    cases s.kbdAnswer with
    | some c => exact wf_setWord _ _ (wf_setWord _ _ h)
    | none => simpa using wf_setWord KBSR 0x0000#16 h
  · simpa [afterRead_of_ne ha] using h

/-! ## Console and strings -/

/-- What GETC and IN do at the console: they end with a byte, or wait. -/
theorem conReadFor_eq (s : State) (who : ConsoleRead) :
    s.conReadFor who =
      match s.conAnswer with
      | some b => (s.setEnv s.conTaken).finishRead who b
      | none => (s.setEnv s.conTaken).setActivity (.consoleWait who) := rfl

/-- What the end of GETC or IN does: R0 and COND from the byte, the port events, the routine over. -/
theorem finishRead_eq (s : State) (who : ConsoleRead) (b : Byte) :
    s.finishRead who b =
      ((s.addEvents (match who with
        | .getc => [.conRead b]
        | .inChar => [.conRead b, .conWrite b, .conFlush])).writeDest .r0 (zext8 b)).setActivity .idle := by
  cases who
  · rfl
  · simp [State.finishRead, State.conWrite, State.conFlush, State.addEvents, State.writeDest, State.setcc, State.setReg,
      State.setCond, State.setRegs, State.setActivity, State.reg]

theorem conTaken_cancelIn (s : State) : s.conTaken.cancelIn = s.env.cancelIn := by
  unfold State.conTaken
  split <;> rfl

/-- The words before the first zero word are found when they are there and the fuel reaches it. -/
theorem stringWords_of_terminated {m : List Host.Cell} (n : Nat) {a : Word} {fuel : Nat} (hf : n < fuel)
    (hw : ∀ k < n, wordAt m (a + BitVec.ofNat 16 k) ≠ 0x0000#16) (h0 : wordAt m (a + BitVec.ofNat 16 n) = 0x0000#16) :
    stringWords m a fuel = some ((List.range n).map fun k => wordAt m (a + BitVec.ofNat 16 k)) := by
  induction n generalizing a fuel with
  | zero =>
    obtain ⟨f, rfl⟩ : ∃ f, fuel = f + 1 := ⟨fuel - 1, by omega⟩
    have h0' : wordAt m a = 0x0000#16 := by simpa using h0
    simp [stringWords, h0']
  | succ n ih =>
    obtain ⟨f, rfl⟩ : ∃ f, fuel = f + 1 := ⟨fuel - 1, by omega⟩
    have step : ∀ k, a + BitVec.ofNat 16 (k + 1) = a + 1#16 + BitVec.ofNat 16 k := fun k => by
      rw [BitVec.ofNat_add]
      ac_rfl
    have ha : wordAt m a ≠ 0x0000#16 := by simpa using hw 0 (by omega)
    have tail := ih (a := a + 1#16) (fuel := f) (by omega)
      (fun k hk => by rw [← step]; exact hw (k + 1) (by omega)) (by rw [← step]; exact h0)
    have head : wordAt m (a + BitVec.ofNat 16 0) = wordAt m a := by simp
    have rest : (fun k => wordAt m (a + BitVec.ofNat 16 k)) ∘ Nat.succ = fun k => wordAt m (a + 1#16 + BitVec.ofNat 16 k) :=
      funext fun k => congrArg (wordAt m) (step k)
    simp only [stringWords, if_neg ha, tail, Option.map_some, List.range_succ_eq_map, List.map_cons, List.map_map, head, rest]

/-- No string is found exactly when the words the fuel reaches hold no zero word. -/
theorem stringWords_eq_none {m : List Host.Cell} {a : Word} {fuel : Nat} :
    stringWords m a fuel = none ↔ ∀ k < fuel, wordAt m (a + BitVec.ofNat 16 k) ≠ 0x0000#16 := by
  induction fuel generalizing a with
  | zero => simp [stringWords]
  | succ f ih =>
    have step : ∀ k, a + BitVec.ofNat 16 (k + 1) = a + 1#16 + BitVec.ofNat 16 k := fun k => by
      rw [BitVec.ofNat_add]
      ac_rfl
    by_cases ha : wordAt m a = 0x0000#16
    · simp only [stringWords, if_pos ha, reduceCtorEq, false_iff]
      intro h
      exact h 0 (by omega) (by simpa using ha)
    · simp only [stringWords, if_neg ha, Option.map_eq_none_iff, ih]
      constructor
      · intro h k hk
        cases k with
        | zero => simpa using ha
        | succ k => rw [step]; exact h k (by omega)
      · intro h k hk
        rw [← step]
        exact h (k + 1) (by omega)

/-- Over the whole memory: no string is found exactly when no cell holds the zero word (R218). -/
theorem stringWords_all_eq_none {m : List Host.Cell} {a : Word} :
    stringWords m a 65536 = none ↔ ∀ b, wordAt m b ≠ 0x0000#16 := by
  rw [stringWords_eq_none]
  constructor
  · intro h b
    have := h (b - a).toNat (b - a).isLt
    rwa [BitVec.ofNat_toNat, BitVec.setWidth_eq, BitVec.add_comm, BitVec.sub_add_cancel] at this
  · intro h k _
    exact h _

/-- What PUTS and PUTSP do: they write the string and flush, or, with no zero word in memory, never end. -/
theorem writeString_eq (s : State) (kind : StringKind) :
    s.writeString kind =
      match stringWords s.mem (s.reg .r0) 65536 with
      | some ws => s.addEvents ((ws.flatMap (stringBytes kind)).map .conWrite ++ [.conFlush])
      | none => s.setActivity (.stringLoop kind (s.reg .r0)) := by
  unfold State.writeString
  cases stringWords s.mem (s.reg .r0) 65536 <;> simp [State.conWrite, State.conFlush, State.addEvents]

/-! ## Flags -/

theorem condOf_cases (v : Word) : condOf v = POS ∨ condOf v = ZRO ∨ condOf v = NEG := by
  unfold condOf
  split
  · exact .inr (.inl rfl)
  · split
    · exact .inr (.inr rfl)
    · exact .inl rfl

/-! ## Cancellation -/

/-- What a `cancel` event does: it sets the flag, and ends the console wait of a running core (R243). -/
theorem hostCancel_cases (s : State) :
    (s.run = .running ∧ (∃ who, s.activity = .consoleWait who) ∧ hostCancel s = (s.setCancelPending true).haltByCancel) ∨
    (¬(s.run = .running ∧ ∃ who, s.activity = .consoleWait who) ∧ hostCancel s = s.setCancelPending true) := by
  unfold hostCancel
  split
  · rename_i who hr ha
    exact .inl ⟨hr, ⟨who, ha⟩, rfl⟩
  · rename_i h
    exact .inr ⟨fun ⟨hr, who, ha⟩ => h who hr ha, rfl⟩

/-- What a byte does that answers an unanswered read: it ends the routine that waits for it (R50). -/
theorem hostByte_of_waiting {s : State} {who : ConsoleRead} (hr : s.run = .running) (ha : s.activity = .consoleWait who)
    (b : Byte) : hostByte s b = s.finishRead who b := by
  simp [hostByte, hr, ha]

/-- What the arrival of a cancellation can do: it changes `cancelPending` and the time of the next arrival only, or it ends the
console wait of a running core. -/
theorem cancelArrives_cases (s : State) :
    (∃ b c, s.cancelArrives = (s.setEnv { s.env with cancelIn := c }).setCancelPending b) ∨
    (s.run = .running ∧ (∃ who, s.activity = .consoleWait who) ∧ s.env.cancelIn = some 0 ∧
      s.cancelArrives = ((s.setEnv { s.env with cancelIn := none }).setCancelPending true).haltByCancel) := by
  unfold State.cancelArrives
  split
  · rename_i h
    exact .inl ⟨s.cancelPending, none, by rw [← h]; rfl⟩
  · rename_i h
    obtain ⟨hr, ha, e⟩ | ⟨_, e⟩ := hostCancel_cases (s.setEnv { s.env with cancelIn := none })
    · exact .inr ⟨hr, ha, h, e⟩
    · exact .inl ⟨true, none, e⟩
  · rename_i k _
    exact .inl ⟨s.cancelPending, some k, rfl⟩

/-- Outside a console wait the arrival changes `cancelPending` and the time of the next arrival only. -/
theorem cancelArrives_of_not_waiting {s : State} (h : ∀ who, s.activity ≠ .consoleWait who) :
    ∃ b c, s.cancelArrives = (s.setEnv { s.env with cancelIn := c }).setCancelPending b := by
  obtain h' | ⟨_, ⟨who, ha⟩, _, _⟩ := cancelArrives_cases s
  · exact h'
  · exact absurd ha (h who)

theorem cancelArrives_of_none {s : State} (h : s.env.cancelIn = none) : s.cancelArrives = s := by
  simp [State.cancelArrives, h]

end Sys2Proof.Laws
end

