-- ==== Sys2Proof/Laws/PerInstr.lean ====
section
/-!
SUPPORT. Statements for all instructions, one lemma per constructor. The family OpcodeField: the word of an instruction carries the
instruction's opcode in ir[15:12] (30_encoding.md R101, R102).
-/

namespace Sys2Proof.Laws.OpcodeField

/-- The opcode field of the instruction's word is the instruction's opcode. -/
def Statement (i : Instr) : Prop := fieldOpcode (encode i) = opcodeOf i

theorem of_operands {o : BitVec 4} {w : Word} (h : ∀ k < 4, w.getLsbD (12 + k) = false) :
    fieldOpcode (place o 12 ||| w) = o := by
  apply BitVec.eq_of_getLsbD_eq
  intro k hk
  have h16 : 12 + k < 16 := by omega
  rw [fieldOpcode, BitVec.getLsbD_extractLsb', BitVec.getLsbD_or, place_getLsbD, h k hk]
  simp [hk, h16]

/-- A field that ends below bit 12 leaves the opcode bits clear. -/
theorem place_low {n : Nat} (field : BitVec n) (lo : Nat) (h : lo + n ≤ 12) {k : Nat} :
    (place field lo).getLsbD (12 + k) = false := by
  rw [place_getLsbD, BitVec.getLsbD_of_ge field (12 + k - lo) (by omega)]
  simp

theorem addReg (dr sr1 sr2 : Reg) : Statement (.addReg dr sr1 sr2) :=
  of_operands fun k hk => by simp [operandBits, place_low]

theorem addImm (dr sr1 : Reg) (imm5 : BitVec 5) : Statement (.addImm dr sr1 imm5) :=
  of_operands fun k hk => by simp [operandBits, place_low]

theorem andReg (dr sr1 sr2 : Reg) : Statement (.andReg dr sr1 sr2) :=
  of_operands fun k hk => by simp [operandBits, place_low]

theorem andImm (dr sr1 : Reg) (imm5 : BitVec 5) : Statement (.andImm dr sr1 imm5) :=
  of_operands fun k hk => by simp [operandBits, place_low]

theorem not (dr sr : Reg) : Statement (.not dr sr) :=
  of_operands fun k hk => by simp [operandBits, place_low]

theorem ld (dr : Reg) (off9 : BitVec 9) : Statement (.ld dr off9) :=
  of_operands fun k hk => by simp [operandBits, place_low]

theorem ldi (dr : Reg) (off9 : BitVec 9) : Statement (.ldi dr off9) :=
  of_operands fun k hk => by simp [operandBits, place_low]

theorem ldr (dr base : Reg) (off6 : BitVec 6) : Statement (.ldr dr base off6) :=
  of_operands fun k hk => by simp [operandBits, place_low]

theorem lea (dr : Reg) (off9 : BitVec 9) : Statement (.lea dr off9) :=
  of_operands fun k hk => by simp [operandBits, place_low]

theorem st (sr : Reg) (off9 : BitVec 9) : Statement (.st sr off9) :=
  of_operands fun k hk => by simp [operandBits, place_low]

theorem sti (sr : Reg) (off9 : BitVec 9) : Statement (.sti sr off9) :=
  of_operands fun k hk => by simp [operandBits, place_low]

theorem str (sr base : Reg) (off6 : BitVec 6) : Statement (.str sr base off6) :=
  of_operands fun k hk => by simp [operandBits, place_low]

theorem br (n z p : Bool) (off9 : BitVec 9) : Statement (.br n z p off9) :=
  of_operands fun k hk => by simp [operandBits, place_low]

theorem jmp (base : Reg) : Statement (.jmp base) :=
  of_operands fun k hk => by simp [operandBits, place_low]

theorem ret : Statement .ret :=
  of_operands fun k hk => by simp [operandBits, place_low]

theorem jsr (off11 : BitVec 11) : Statement (.jsr off11) :=
  of_operands fun k hk => by simp [operandBits, place_low]

theorem jsrr (base : Reg) : Statement (.jsrr base) :=
  of_operands fun k hk => by simp [operandBits, place_low]

theorem rti : Statement .rti :=
  of_operands fun k hk => by simp [operandBits]

theorem res : Statement .res :=
  of_operands fun k hk => by simp [operandBits]

theorem trap (v : BitVec 8) : Statement (.trap v) :=
  of_operands fun k hk => by simp [operandBits, place_low]

theorem getc : Statement .getc :=
  of_operands fun k hk => by simp [operandBits, place_low]

theorem out : Statement .out :=
  of_operands fun k hk => by simp [operandBits, place_low]

theorem puts : Statement .puts :=
  of_operands fun k hk => by simp [operandBits, place_low]

theorem inChar : Statement .inChar :=
  of_operands fun k hk => by simp [operandBits, place_low]

theorem putsp : Statement .putsp :=
  of_operands fun k hk => by simp [operandBits, place_low]

theorem halt : Statement .halt :=
  of_operands fun k hk => by simp [operandBits, place_low]

end Sys2Proof.Laws.OpcodeField
end

