-- ==== Sys2Proof/Laws/Routines.lean ====
section
/-!
SUPPORT. The trap routines and the condition code, one lemma per function or per field: what each can do, so that proofs do not unfold
them. `writeString` searches up to 65,536 words: cite these lemmas (or `writeString_eq`), never evaluate it.
-/

namespace Sys2Proof.Laws

open Sys2Proof.Machine

/-! ## The condition code -/

theorem getLsbD_15_iff_neg (v : Word) : v.getLsbD 15 = true ↔ v.toInt < 0 := by
  have hm : v.getLsbD 15 = v.msb := by simp [BitVec.msb, BitVec.getMsbD]
  rw [hm, BitVec.msb_eq_decide, BitVec.toInt_neg_iff]
  have := v.isLt
  simp
  omega

theorem toInt_eq_zero_iff (v : Word) : v.toInt = 0 ↔ v = 0x0000#16 := by
  constructor
  · intro h
    exact BitVec.eq_of_toInt_eq (by simpa using h)
  · rintro rfl
    rfl

/-- The condition code by the sign of the value read as a two's-complement number (R147). -/
theorem condOf_eq (v : Word) : condOf v = if v.toInt = 0 then ZRO else if v.toInt < 0 then NEG else POS := by
  by_cases h0 : v = 0x0000#16
  · simp [condOf, h0]
  · have hz : v.toInt ≠ 0 := fun h => h0 ((toInt_eq_zero_iff v).1 h)
    by_cases hn : v.getLsbD 15 = true
    · rw [condOf, if_neg h0, if_pos hn, if_neg hz, if_pos ((getLsbD_15_iff_neg v).1 hn)]
    · rw [condOf, if_neg h0, if_neg hn, if_neg hz, if_neg fun h => hn ((getLsbD_15_iff_neg v).2 h)]

/-- A zero-extended byte is never negative (R211). -/
theorem condOf_zext8 (b : Byte) : condOf (zext8 b) = if b = 0x00#8 then ZRO else POS := by
  revert b
  decide

/-! ## GETC and IN -/

@[simp] theorem conAnswer_conWrite (s : State) (bs : List Byte) : (s.conWrite bs).conAnswer = s.conAnswer := rfl
@[simp] theorem conTaken_conWrite (s : State) (bs : List Byte) : (s.conWrite bs).conTaken = s.conTaken := rfl

theorem conReadFor_activity (s : State) (who : ConsoleRead) :
    (s.conReadFor who).activity = if s.conAnswer.isSome then .idle else .consoleWait who := by
  rw [conReadFor_eq]
  cases s.conAnswer <;> cases who <;> rfl

theorem reg_conReadFor_of_ne {r : Reg} (h : r ≠ .r0) (s : State) (who : ConsoleRead) :
    (s.conReadFor who).reg r = s.reg r := by
  rw [conReadFor_eq]
  cases s.conAnswer <;> simp [finishRead_eq, reg_writeDest, h]

theorem conReadFor_cond (s : State) (who : ConsoleRead) :
    (s.conReadFor who).cond = match s.conAnswer with
      | some b => condOf (zext8 b)
      | none => s.cond := by
  rw [conReadFor_eq]
  cases s.conAnswer <;> cases who <;> rfl

@[simp] theorem conReadFor_pc (s : State) (who : ConsoleRead) : (s.conReadFor who).pc = s.pc := by
  rw [conReadFor_eq]
  cases s.conAnswer <;> cases who <;> rfl

@[simp] theorem conReadFor_mem (s : State) (who : ConsoleRead) : (s.conReadFor who).mem = s.mem := by
  rw [conReadFor_eq]
  cases s.conAnswer <;> cases who <;> rfl

@[simp] theorem conReadFor_run (s : State) (who : ConsoleRead) : (s.conReadFor who).run = s.run := by
  rw [conReadFor_eq]
  cases s.conAnswer <;> cases who <;> rfl

@[simp] theorem conReadFor_cancelPending (s : State) (who : ConsoleRead) :
    (s.conReadFor who).cancelPending = s.cancelPending := by
  rw [conReadFor_eq]
  cases s.conAnswer <;> cases who <;> rfl

@[simp] theorem conReadFor_ir (s : State) (who : ConsoleRead) : (s.conReadFor who).ir = s.ir := by
  rw [conReadFor_eq]
  cases s.conAnswer <;> cases who <;> rfl

@[simp] theorem conReadFor_params (s : State) (who : ConsoleRead) : (s.conReadFor who).params = s.params := by
  rw [conReadFor_eq]
  cases s.conAnswer <;> cases who <;> rfl

@[simp] theorem conReadFor_env (s : State) (who : ConsoleRead) : (s.conReadFor who).env = s.conTaken := by
  rw [conReadFor_eq]
  cases s.conAnswer <;> cases who <;> rfl

/-! ## PUTS and PUTSP -/

@[simp] theorem writeString_regs (s : State) (kind : StringKind) : (s.writeString kind).regs = s.regs := by
  rw [writeString_eq]
  split <;> rfl

@[simp] theorem reg_writeString (s : State) (kind : StringKind) (r : Reg) : (s.writeString kind).reg r = s.reg r := by
  simp [State.reg]

@[simp] theorem writeString_cond (s : State) (kind : StringKind) : (s.writeString kind).cond = s.cond := by
  rw [writeString_eq]
  split <;> rfl

@[simp] theorem writeString_pc (s : State) (kind : StringKind) : (s.writeString kind).pc = s.pc := by
  rw [writeString_eq]
  split <;> rfl

@[simp] theorem writeString_mem (s : State) (kind : StringKind) : (s.writeString kind).mem = s.mem := by
  rw [writeString_eq]
  split <;> rfl

@[simp] theorem writeString_run (s : State) (kind : StringKind) : (s.writeString kind).run = s.run := by
  rw [writeString_eq]
  split <;> rfl

@[simp] theorem writeString_params (s : State) (kind : StringKind) : (s.writeString kind).params = s.params := by
  rw [writeString_eq]
  split <;> rfl

@[simp] theorem writeString_env (s : State) (kind : StringKind) : (s.writeString kind).env = s.env := by
  rw [writeString_eq]
  split <;> rfl

/-- One more turn of the loop writes the bytes of one more word (R213, R215). -/
theorem stringOutput_succ (m : List Host.Cell) (kind : StringKind) (a : Word) (n : Nat) :
    stringOutput m kind a (n + 1) = stringOutput m kind a n ++ stringBytes kind (wordAt m (a + BitVec.ofNat 16 n)) := by
  simp [stringOutput, List.range_succ]

/-- What a string that never ends shows (R154, R218). -/
theorem observed_of_stringLoop {s : State} {kind : StringKind} {a : Word} (h : s.activity = .stringLoop kind a) (n : Nat) :
    s.observed n = s.events ++ (stringOutput s.mem kind a n).map .conWrite := by
  simp [State.observed, h]

/-! ## The dispatcher -/

/-- What an undefined vector does: it changes at most the run state (R217, R241). -/
theorem undefinedTrap_eq (s : State) (v : BitVec 8) :
    s.undefinedTrap v =
      s.setRun (if s.params.undefinedTrapPolicy = .abort then .aborted (.undefinedTrap v) else s.run) := by
  unfold State.undefinedTrap
  cases h : s.params.undefinedTrapPolicy <;> simp [State.abort, State.setRun]

/-- Everything the Trap Dispatcher can do (R210). -/
theorem dispatchTrap_cases (s : State) (v : BitVec 8) :
    (v = 0x20#8 ∧ s.dispatchTrap v = s.getcRoutine) ∨ (v = 0x21#8 ∧ s.dispatchTrap v = s.outRoutine) ∨
    (v = 0x22#8 ∧ s.dispatchTrap v = s.putsRoutine) ∨ (v = 0x23#8 ∧ s.dispatchTrap v = s.inRoutine) ∨
    (v = 0x24#8 ∧ s.dispatchTrap v = s.putspRoutine) ∨ (v = 0x25#8 ∧ s.dispatchTrap v = s.haltRoutine) ∨
    (isServiceVector v = false ∧ s.dispatchTrap v = s.undefinedTrap v) := by
  have service : isServiceVector v = true →
      v = 0x20#8 ∨ v = 0x21#8 ∨ v = 0x22#8 ∨ v = 0x23#8 ∨ v = 0x24#8 ∨ v = 0x25#8 := by
    revert v
    decide
  by_cases h0 : v = 0x20#8
  · exact .inl ⟨h0, by rw [h0]; rfl⟩
  by_cases h1 : v = 0x21#8
  · exact .inr (.inl ⟨h1, by rw [h1]; rfl⟩)
  by_cases h2 : v = 0x22#8
  · exact .inr (.inr (.inl ⟨h2, by simp [State.dispatchTrap, h2]⟩))
  by_cases h3 : v = 0x23#8
  · exact .inr (.inr (.inr (.inl ⟨h3, by simp [State.dispatchTrap, h3]⟩)))
  by_cases h4 : v = 0x24#8
  · exact .inr (.inr (.inr (.inr (.inl ⟨h4, by simp [State.dispatchTrap, h4]⟩))))
  by_cases h5 : v = 0x25#8
  · exact .inr (.inr (.inr (.inr (.inr (.inl ⟨h5, by simp [State.dispatchTrap, h5]⟩)))))
  have undef : isServiceVector v = false := by
    simpa [h0, h1, h2, h3, h4, h5] using service
  exact .inr (.inr (.inr (.inr (.inr (.inr ⟨undef, by
    simp [State.dispatchTrap, h0, h1, h2, h3, h4, h5]⟩)))))

end Sys2Proof.Laws
end

