-- ==== Sys2Proof/Laws/Step.lean ====
section
/-!
SUPPORT. What one transition can do, case by case, how a run unfolds into transitions, and the induction over runs, packaged once.
-/

namespace Sys2Proof.Laws

open Sys2Proof.Machine

/-! ## The arrival of a cancellation touches `cancelPending` and the environment, and in a console wait the run state -/

@[simp] theorem cancelArrives_regs (s : State) : s.cancelArrives.regs = s.regs := by
  obtain ⟨b, c, h⟩ | ⟨_, _, _, h⟩ := cancelArrives_cases s <;> simp [h, State.haltByCancel]

@[simp] theorem reg_cancelArrives (s : State) (r : Reg) : s.cancelArrives.reg r = s.reg r := by
  simp [State.reg]

@[simp] theorem cancelArrives_pc (s : State) : s.cancelArrives.pc = s.pc := by
  obtain ⟨b, c, h⟩ | ⟨_, _, _, h⟩ := cancelArrives_cases s <;> simp [h, State.haltByCancel]

@[simp] theorem cancelArrives_cond (s : State) : s.cancelArrives.cond = s.cond := by
  obtain ⟨b, c, h⟩ | ⟨_, _, _, h⟩ := cancelArrives_cases s <;> simp [h, State.haltByCancel]

@[simp] theorem cancelArrives_mem (s : State) : s.cancelArrives.mem = s.mem := by
  obtain ⟨b, c, h⟩ | ⟨_, _, _, h⟩ := cancelArrives_cases s <;> simp [h, State.haltByCancel]

@[simp] theorem rawRead_cancelArrives (s : State) (a : Word) : s.cancelArrives.rawRead a = s.rawRead a := by
  simp [State.rawRead]

@[simp] theorem cancelArrives_ir (s : State) : s.cancelArrives.ir = s.ir := by
  obtain ⟨b, c, h⟩ | ⟨_, _, _, h⟩ := cancelArrives_cases s <;> simp [h, State.haltByCancel]

@[simp] theorem cancelArrives_events (s : State) : s.cancelArrives.events = s.events := by
  obtain ⟨b, c, h⟩ | ⟨_, _, _, h⟩ := cancelArrives_cases s <;> simp [h, State.haltByCancel]

@[simp] theorem cancelArrives_params (s : State) : s.cancelArrives.params = s.params := by
  obtain ⟨b, c, h⟩ | ⟨_, _, _, h⟩ := cancelArrives_cases s <;> simp [h, State.haltByCancel]

theorem cancelArrives_run {s : State} (h : ∀ who, s.activity ≠ .consoleWait who) : s.cancelArrives.run = s.run := by
  obtain ⟨b, c, e⟩ := cancelArrives_of_not_waiting h
  simp [e]

theorem cancelArrives_activity {s : State} (h : ∀ who, s.activity ≠ .consoleWait who) : s.cancelArrives.activity = s.activity := by
  obtain ⟨b, c, e⟩ := cancelArrives_of_not_waiting h
  simp [e]

@[simp] theorem afterTransition_next (s : State) : afterTransition (.next s) = .next s.cancelArrives := rfl

/-! ## The cases of a transition -/

/-- Everything a transition can be: nothing after the end of the run and in a step that never completes; a pending cancellation taken at
a boundary or in a console wait; an instruction (R141, R150, R151, R153, R243). -/
theorem step_cases (s : State) :
    (s.run ≠ .running ∧ step s = .next s) ∨
    (s.run = .running ∧ s.cancelPending = true ∧ (s.activity = .idle ∨ ∃ who, s.activity = .consoleWait who) ∧
      step s = .next s.haltByCancel) ∨
    (s.run = .running ∧ s.cancelPending = false ∧ s.activity = .idle ∧
      step s = afterTransition (exec (decode s.fetch.ir) s.fetch)) ∨
    (s.run = .running ∧ s.cancelPending = false ∧ (∃ who, s.activity = .consoleWait who) ∧ step s = .next s) ∨
    (s.run = .running ∧ (∃ kind a, s.activity = .stringLoop kind a) ∧ step s = .next s) := by
  cases hr : s.run with
  | halted by' => exact .inl ⟨by simp, by simp [step, hr]⟩
  | aborted reason => exact .inl ⟨by simp, by simp [step, hr]⟩
  | running =>
    refine .inr ?_
    cases ha : s.activity with
    | idle =>
      cases hc : s.cancelPending with
      | true => exact .inl ⟨rfl, rfl, .inl rfl, by simp [step, hr, ha, hc]⟩
      | false => exact .inr (.inl ⟨rfl, rfl, rfl, by simp [step, hr, ha, hc, runInstruction]⟩)
    | consoleWait who =>
      cases hc : s.cancelPending with
      | true => exact .inl ⟨rfl, rfl, .inr ⟨who, rfl⟩, by simp [step, hr, ha, hc]⟩
      | false => exact .inr (.inr (.inl ⟨rfl, rfl, ⟨who, rfl⟩, by simp [step, hr, ha, hc]⟩))
    | stringLoop kind a => exact .inr (.inr (.inr ⟨rfl, ⟨kind, a, rfl⟩, by simp [step, hr, ha]⟩))

/-! ## The fetch -/

@[simp] theorem fetch_ir (s : State) : s.fetch.ir = s.memRead s.pc := rfl
@[simp] theorem fetch_pc (s : State) : s.fetch.pc = s.pc + 1#16 := rfl

@[simp] theorem fetch_regs (s : State) : s.fetch.regs = s.regs := by
  simp [State.fetch]

@[simp] theorem reg_fetch (s : State) (r : Reg) : s.fetch.reg r = s.reg r := by
  simp [State.reg]

@[simp] theorem fetch_cond (s : State) : s.fetch.cond = s.cond := by
  simp [State.fetch]

@[simp] theorem fetch_mem (s : State) : s.fetch.mem = (s.afterRead s.pc).mem := rfl
@[simp] theorem rawRead_fetch (s : State) (a : Word) : s.fetch.rawRead a = (s.afterRead s.pc).rawRead a := rfl

@[simp] theorem fetch_run (s : State) : s.fetch.run = s.run := by
  simp [State.fetch]

@[simp] theorem fetch_activity (s : State) : s.fetch.activity = s.activity := by
  simp [State.fetch]

@[simp] theorem fetch_cancelPending (s : State) : s.fetch.cancelPending = s.cancelPending := by
  simp [State.fetch]

@[simp] theorem fetch_events (s : State) : s.fetch.events = (s.afterRead s.pc).events := rfl
@[simp] theorem fetch_env (s : State) : s.fetch.env = (s.afterRead s.pc).env := rfl

@[simp] theorem fetch_params (s : State) : s.fetch.params = s.params := by
  simp [State.fetch]

/-! ## Runs -/

theorem run_zero (s : State) : Host.Core.run Sys2Proof.core 0 s = .next s := rfl

theorem run_succ_of_next (M : Host.Core) {s u : M.State} (h : M.step s = .next u) (k : Nat) :
    M.run (k + 1) s = M.run k u := by
  simp [Host.Core.run, h]

theorem run_succ {s u : State} (h : step s = .next u) (k : Nat) :
    Host.Core.run Sys2Proof.core (k + 1) s = Host.Core.run Sys2Proof.core k u :=
  run_succ_of_next Sys2Proof.core h k

theorem run_keeps_of (M : Host.Core) {P : M.State → Prop} (keep : ∀ s t, P s → M.step s = .next t → P t) :
    ∀ (k : Nat) (s t : M.State), P s → M.run k s = .next t → P t := by
  intro k
  induction k with
  | zero =>
    intro s t hs h
    have e : s = t := by simpa [Host.Core.run] using h
    exact e ▸ hs
  | succ k ih =>
    intro s t hs h
    cases hu : M.step s with
    | next u => exact ih u t (keep s u hs hu) (by rwa [run_succ_of_next M hu] at h)
    | fault r => simp [Host.Core.run, hu] at h
    | refused r => simp [Host.Core.run, hu] at h

/-- What holds of a state and is kept by every step holds of every state of the run from it. -/
theorem run_keeps {P : State → Prop} (keep : ∀ s t, P s → step s = .next t → P t) (k : Nat) (s t : State) (hs : P s)
    (h : Host.Core.run Sys2Proof.core k s = .next t) : P t :=
  run_keeps_of Sys2Proof.core keep k s t hs h

end Sys2Proof.Laws
end

