-- ==== Sys2Proof/Tests/Slice0.lean ====
section
/-!
SUPPORT. Tests: the well-formedness checks, decoding of words written out bit by bit from the format table (30_encoding.md R102, R103),
single steps whose results are those of the spec's own vectors (95_test_vectors.md, named V<n> and S<n>), and a witness for every
obligation that has hypotheses.
-/

namespace Sys2Proof.Tests

open Sys2Proof.Machine Sys2Proof.Safety

/-! ## Small states -/

/-- The reset state with parameters that have concrete bytes: notice 0x21, prompt 0x50, policy abort. -/
def base : State := { State.reset with params := ⟨.abort, [0x21#8], [0x50#8]⟩ }

/-- `base` with the word w at address a and pc there. -/
def prog (a w : Word) : State := (base.setPc a).memWrite a w

/-- The state after one step (no step of this machine stops). -/
def after (s : State) : State :=
  match step s with
  | .next t => t
  | .fault _ => s
  | .refused _ => s

/-- A state whose next keyboard answers are these. -/
def kbd (s : State) (answers : List (Option Byte)) : State := s.setEnv { s.env with kbdIn := answers }

/-- A state whose next console answers are these. -/
def con (s : State) (answers : List (Option Byte)) : State := s.setEnv { s.env with conIn := answers }

/-! ## WellFormed -/

theorem test_jmp_r7_is_ill_formed : WellFormed (.jmp .r7) = false := by decide
theorem test_trap_getc_is_ill_formed : WellFormed (.trap 0x20#8) = false := by decide
theorem test_trap_halt_is_ill_formed : WellFormed (.trap 0x25#8) = false := by decide
theorem test_neighbours_are_well_formed :
    WellFormed (.jmp .r6) = true ∧ WellFormed (.trap 0x1F#8) = true ∧ WellFormed (.trap 0x26#8) = true := by decide

/-! ## Decoding: every constructor, words written out by the format table -/

-- opcode DR SR1 0 -- SR2
theorem test_decode_add_reg : decode 0b0001_010_001_0_00_011#16 = .addReg .r2 .r1 .r3 := by decide
-- opcode DR SR1 1 imm5
theorem test_decode_add_imm : decode 0b0001_010_001_1_10001#16 = .addImm .r2 .r1 (-15#5) := by decide
theorem test_decode_and_reg : decode 0b0101_111_110_0_00_101#16 = .andReg .r7 .r6 .r5 := by decide
theorem test_decode_and_imm : decode 0b0101_111_110_1_01111#16 = .andImm .r7 .r6 15#5 := by decide
-- opcode DR SR ------
theorem test_decode_not : decode 0b1001_100_101_111111#16 = .not .r4 .r5 := by decide
-- opcode DR/SR PCoffset9
theorem test_decode_ld : decode 0b0010_011_100000001#16 = .ld .r3 (-255#9) := by decide
theorem test_decode_ldi : decode 0b1010_110_011111111#16 = .ldi .r6 255#9 := by decide
theorem test_decode_lea : decode 0b1110_001_000000010#16 = .lea .r1 2#9 := by decide
theorem test_decode_st : decode 0b0011_101_111111111#16 = .st .r5 (-1#9) := by decide
theorem test_decode_sti : decode 0b1011_010_100000000#16 = .sti .r2 (-256#9) := by decide
-- opcode DR/SR BaseR offset6
theorem test_decode_ldr : decode 0b0110_100_011_100001#16 = .ldr .r4 .r3 (-31#6) := by decide
theorem test_decode_str : decode 0b0111_001_110_011111#16 = .str .r1 .r6 31#6 := by decide
-- 0000 n z p PCoffset9
theorem test_decode_br : decode 0b0000_1_0_1_000000100#16 = .br true false true 4#9 := by decide
-- 1100 --- BaseR ------
theorem test_decode_jmp : decode 0b1100_000_010_000000#16 = .jmp .r2 := by decide
theorem test_decode_ret : decode 0b1100_000_111_000000#16 = .ret := by decide
-- 0100 1 PCoffset11
theorem test_decode_jsr : decode 0b0100_1_10000000001#16 = .jsr (-1023#11) := by decide
-- 0100 0 -- BaseR ------
theorem test_decode_jsrr : decode 0b0100_0_00_011_000000#16 = .jsrr .r3 := by decide
-- opcode ------------
theorem test_decode_rti : decode 0b1000_000000000000#16 = .rti := by decide
theorem test_decode_res : decode 0b1101_111111111111#16 = .res := by decide
-- 1111 ---- trapvect8
theorem test_decode_trap : decode 0b1111_0000_00100110#16 = .trap 0x26#8 := by decide
theorem test_decode_getc : decode 0b1111_0000_00100000#16 = .getc := by decide
theorem test_decode_out : decode 0b1111_0000_00100001#16 = .out := by decide
theorem test_decode_puts : decode 0b1111_0000_00100010#16 = .puts := by decide
theorem test_decode_in : decode 0b1111_0000_00100011#16 = .inChar := by decide
theorem test_decode_putsp : decode 0b1111_0000_00100100#16 = .putsp := by decide
theorem test_decode_halt : decode 0b1111_0000_00100101#16 = .halt := by decide

-- Unused bits are ignored (V16, V18, V73; R107).
theorem test_unused_bits :
    decode 0x565A#16 = decode 0x5642#16 ∧ decode 0x9940#16 = decode 0x997F#16 ∧ decode 0xF125#16 = .halt := by decide

-- The host's form of the decoder: one 16-bit word, nothing longer.
theorem test_decode_table_word :
    decodeTableWord 16 0x123D = some (.addImm .r1 .r0 (-3#5)) ∧ decodeTableWord 32 0x123D = none := by decide

/-! ## Single steps: the spec's vectors -/

theorem test_add_wraps_V7 :
    let t := after (((prog 0x3000#16 0x1401#16).setReg .r0 0x7FFF#16).setReg .r1 0x0001#16)
    t.reg .r2 = 0x8000#16 ∧ t.cond = 0x0004#16 ∧ t.pc = 0x3001#16 := by decide

theorem test_add_same_register_V11 :
    let t := after ((prog 0x3000#16 0x1241#16).setReg .r1 0x4000#16)
    t.reg .r1 = 0x8000#16 ∧ t.cond = 0x0004#16 := by decide

theorem test_add_imm_S8 :
    let t := after ((prog 0x3000#16 0x123D#16).setReg .r0 0x0005#16)
    t.reg .r1 = 0x0002#16 ∧ t.cond = 0x0001#16 ∧ t.pc = 0x3001#16 := by decide

theorem test_add_imm_carry_lost_V8 :
    let t := after ((prog 0x3000#16 0x143F#16).setReg .r0 0x0001#16)
    t.reg .r2 = 0x0000#16 ∧ t.cond = 0x0002#16 := by decide

theorem test_and_reg_V15 :
    let t := after (((prog 0x3000#16 0x5642#16).setReg .r1 0x0F0F#16).setReg .r2 0x00FF#16)
    t.reg .r3 = 0x000F#16 ∧ t.cond = 0x0001#16 := by decide

theorem test_and_imm_sign_extends_V14 :
    let t := after ((prog 0x3000#16 0x52B0#16).setReg .r2 0x1234#16)
    t.reg .r1 = 0x1230#16 ∧ t.cond = 0x0001#16 := by decide

theorem test_not_V17 :
    let t := after ((prog 0x3000#16 0x997F#16).setReg .r5 0x00FF#16)
    t.reg .r4 = 0xFF00#16 ∧ t.cond = 0x0004#16 := by decide

theorem test_not_in_place_V19 :
    let t := after ((prog 0x3000#16 0x903F#16).setReg .r0 0xFFFF#16)
    t.reg .r0 = 0x0000#16 ∧ t.cond = 0x0002#16 := by decide

theorem test_ld_V22 :
    let t := after ((prog 0x3000#16 0x2100#16).memWrite 0x2F01#16 0x8000#16)
    t.reg .r0 = 0x8000#16 ∧ t.cond = 0x0004#16 := by decide

theorem test_ld_wraps_V23 :
    let t := after ((prog 0xFFFF#16 0x20FF#16).memWrite 0x00FF#16 0x0007#16)
    t.reg .r0 = 0x0007#16 ∧ t.cond = 0x0001#16 ∧ t.pc = 0x0000#16 := by decide

theorem test_ldi_no_key_V25 :
    let t := after (kbd (((prog 0x3000#16 0xA200#16).memWrite 0x3001#16 0xFE00#16).memWrite 0xFE00#16 0x1234#16) [none])
    t.reg .r1 = 0x0000#16 ∧ t.cond = 0x0002#16 ∧ t.rawRead 0xFE00#16 = 0x0000#16 ∧ t.events = [.kbdPoll false] := by decide

theorem test_ldi_key_V26 :
    let t := after (kbd ((prog 0x3000#16 0xA200#16).memWrite 0x3001#16 0xFE00#16) [some 0x41#8])
    t.reg .r1 = 0x8000#16 ∧ t.cond = 0x0004#16 ∧ t.rawRead 0xFE00#16 = 0x8000#16 ∧ t.rawRead 0xFE02#16 = 0x0041#16 ∧
      t.events = [.kbdPoll true, .kbdConsume 0x41#8] := by decide

theorem test_ldr_wraps_V28 :
    let t := after (((prog 0x3000#16 0x605F#16).setReg .r1 0xFFF0#16).memWrite 0x000F#16 0x0101#16)
    t.reg .r0 = 0x0101#16 ∧ t.cond = 0x0001#16 := by decide

theorem test_ldr_own_base_V30 :
    let t := after (((prog 0x3000#16 0x6480#16).setReg .r2 0x4000#16).memWrite 0x4000#16 0x0005#16)
    t.reg .r2 = 0x0005#16 ∧ t.cond = 0x0001#16 := by decide

theorem test_lea_V34 :
    let t := after (prog 0x7FFF#16 0xE000#16)
    t.reg .r0 = 0x8000#16 ∧ t.cond = 0x0004#16 := by decide

theorem test_lea_reads_nothing_V35 :
    let t := after (kbd (prog 0xFE01#16 0xE1FF#16) [some 0x41#8])
    t.reg .r0 = 0xFE01#16 ∧ t.cond = 0x0004#16 ∧ t.events = [] := by decide

theorem test_st_V36 :
    let t := after ((prog 0x3000#16 0x3203#16).setReg .r1 0xBEEF#16)
    t.rawRead 0x3004#16 = 0xBEEF#16 ∧ t.cond = 0x0002#16 := by decide

theorem test_sti_write_does_not_poll_V39 :
    let t := after (((prog 0x3000#16 0xB200#16).setReg .r1 0xABCD#16).memWrite 0x3001#16 0xFE00#16)
    t.rawRead 0xFE00#16 = 0xABCD#16 ∧ t.events = [] := by decide

theorem test_sti_pointer_read_polls_V40 :
    let t := after (kbd ((prog 0xFDFF#16 0xB200#16).setReg .r1 0xABCD#16) [some 0x41#8])
    t.rawRead 0xFE00#16 = 0x8000#16 ∧ t.rawRead 0xFE02#16 = 0x0041#16 ∧ t.rawRead 0x8000#16 = 0xABCD#16 ∧
      t.pc = 0xFE00#16 := by decide

theorem test_str_wraps_V43 :
    let t := after (((prog 0x3000#16 0x72BF#16).setReg .r2 0x0000#16).setReg .r1 0x55AA#16)
    t.rawRead 0xFFFF#16 = 0x55AA#16 := by decide

theorem test_br_taken_S9 : (after (prog 0x3000#16 0x0404#16)).pc = 0x3005#16 := by decide

theorem test_br_not_taken_S9 : (after ((prog 0x3000#16 0x0404#16).setCond NEG)).pc = 0x3001#16 := by decide

theorem test_br_wraps_V49 : (after ((prog 0xFF00#16 0x02FF#16).setCond POS)).pc = 0x0000#16 := by decide

theorem test_jmp_V51 : (after ((prog 0x3000#16 0xC080#16).setReg .r2 0x4000#16)).pc = 0x4000#16 := by decide

theorem test_ret_V52 :
    let t := after ((prog 0x3000#16 0xC1C0#16).setReg .r7 0x3456#16)
    t.pc = 0x3456#16 ∧ t.reg .r7 = 0x3456#16 := by decide

theorem test_jsr_V54 :
    let t := after ((prog 0x3000#16 0x4C00#16).setCond NEG)
    t.reg .r7 = 0x3001#16 ∧ t.pc = 0x2C01#16 ∧ t.cond = NEG := by decide

theorem test_jsr_wraps_V56 :
    let t := after (prog 0xFFFE#16 0x4801#16)
    t.reg .r7 = 0xFFFF#16 ∧ t.pc = 0x0000#16 := by decide

theorem test_jsrr_V57 :
    let t := after ((prog 0x3000#16 0x40C0#16).setReg .r3 0x5000#16)
    t.reg .r7 = 0x3001#16 ∧ t.pc = 0x5000#16 := by decide

theorem test_jsrr_r7_falls_through_V58 :
    let t := after ((prog 0x3000#16 0x41C0#16).setReg .r7 0x5000#16)
    t.reg .r7 = 0x3001#16 ∧ t.pc = 0x3001#16 := by decide

theorem test_getc_V61 :
    let t := after (con (((prog 0x3000#16 0xF020#16).setReg .r0 0x1234#16).setCond NEG) [some 0x61#8])
    t.reg .r0 = 0x0061#16 ∧ t.cond = POS ∧ t.reg .r7 = 0x3001#16 ∧ t.events = [.conRead 0x61#8] := by decide

-- The cancellation comes while no byte does: one step (V83).
theorem test_getc_cancelled_V83 :
    let s := con (((prog 0x3000#16 0xF020#16).setReg .r0 0x1234#16).setCond NEG) [none]
    let t := after (s.setEnv { s.env with cancelIn := some 0 })
    t.run = .halted .cancel ∧ t.reg .r7 = 0x3001#16 ∧ t.pc = 0x3001#16 ∧ t.reg .r0 = 0x1234#16 ∧ t.cond = NEG := by decide

-- One transition is one instruction: an IN whose byte never comes is left waiting, and a further step changes nothing (R152, R153).
theorem test_in_unanswered :
    let t := after (con (prog 0x3000#16 0xF023#16) [none, some 0x79#8])
    t.activity = .consoleWait .inChar ∧ after t = t ∧ (hostByte t 0x79#8).reg .r0 = 0x0079#16 := by decide

theorem test_out_V60 :
    let t := after ((prog 0x3000#16 0xF021#16).setReg .r0 0xFF41#16)
    t.events = [.conWrite 0x41#8, .conFlush] ∧ t.reg .r7 = 0x3001#16 ∧ t.pc = 0x3001#16 := by decide

theorem test_puts_V65 :
    let t := after ((((prog 0x3000#16 0xF022#16).setReg .r0 0x4000#16).memWrite 0x4000#16 0x0048#16).memWrite
      0x4001#16 0x0069#16)
    t.events = [.conWrite 0x48#8, .conWrite 0x69#8, .conFlush] ∧ t.activity = .idle := by decide

theorem test_puts_wraps_V68 :
    let t := after (((prog 0x3000#16 0xF022#16).setReg .r0 0xFFFF#16).memWrite 0xFFFF#16 0x0042#16)
    t.events = [.conWrite 0x42#8, .conFlush] := by decide

theorem test_in_V63 :
    let t := after (con (prog 0x3000#16 0xF023#16) [some 0x79#8])
    t.events = [.conWrite 0x50#8, .conRead 0x79#8, .conWrite 0x79#8, .conFlush] ∧ t.reg .r0 = 0x0079#16 ∧
      t.cond = POS := by decide

theorem test_in_cancelled_V84 :
    let s := con (prog 0x3000#16 0xF023#16) [none]
    let t := after (s.setEnv { s.env with cancelIn := some 0 })
    t.events = [.conWrite 0x50#8] ∧ t.run = .halted .cancel ∧ t.reg .r7 = 0x3001#16 := by decide

theorem test_putsp_V70 :
    let t := after ((((prog 0x3000#16 0xF024#16).setReg .r0 0x4000#16).memWrite 0x4000#16 0x6548#16).memWrite
      0x4001#16 0x006C#16)
    t.events = [.conWrite 0x48#8, .conWrite 0x65#8, .conWrite 0x6C#8, .conFlush] := by decide

theorem test_putsp_zero_low_byte_V71 :
    let t := after (((prog 0x3000#16 0xF024#16).setReg .r0 0x4000#16).memWrite 0x4000#16 0x4100#16)
    t.events = [.conWrite 0x00#8, .conWrite 0x41#8, .conFlush] := by decide

theorem test_halt_V73 :
    let t := after (prog 0x3000#16 0xF125#16)
    t.events = [.conWrite 0x21#8, .conFlush] ∧ t.run = .halted .haltTrap ∧ t.reg .r7 = 0x3001#16 ∧
      t.pc = 0x3001#16 := by decide

theorem test_undefined_vector_aborts_V74 :
    let t := after (prog 0x3000#16 0xF026#16)
    t.run = .aborted (.undefinedTrap 0x26#8) ∧ t.reg .r7 = 0x3001#16 ∧ t.pc = 0x3001#16 ∧ t.events = [] := by decide

theorem test_undefined_vector_noop_V75 :
    let t := after { prog 0x3000#16 0xF026#16 with params := ⟨.noop, [], []⟩ }
    t.run = .running ∧ t.reg .r7 = 0x3001#16 ∧ t.pc = 0x3001#16 := by decide

theorem test_res_V77 :
    let t := after (prog 0x3000#16 0xDFFF#16)
    t.run = .aborted .reservedOpcode ∧ t.pc = 0x3001#16 ∧ t.ir = 0xDFFF#16 := by decide

theorem test_rti_V79 :
    let t := after (prog 0x3000#16 0x8ABC#16)
    t.run = .aborted .rtiOpcode ∧ t.pc = 0x3001#16 := by decide

-- The codes of R240.
theorem test_abort_codes :
    AbortReason.reservedOpcode.code = 0x0D ∧ AbortReason.rtiOpcode.code = 0x08 ∧
      (AbortReason.undefinedTrap 0x26#8).code = 0x126 := by decide

theorem test_fetch_at_kbsr_V81 :
    let t := after (kbd (base.setPc 0xFE00#16) [some 0x41#8])
    t.run = .aborted .rtiOpcode ∧ t.rawRead 0xFE02#16 = 0x0041#16 ∧ t.pc = 0xFE01#16 := by decide

theorem test_cancel_before_fetch_V82 :
    let t := after (hostCancel (prog 0x3000#16 0x1021#16))
    t.run = .halted .cancel ∧ t.pc = 0x3000#16 ∧ t.reg .r0 = 0x0000#16 := by decide

theorem test_cancel_during_halt_V85 :
    let s := prog 0x3000#16 0xF025#16
    (after (s.setEnv { s.env with cancelIn := some 0 })).run = .halted .haltTrap := by decide

-- The first instruction after reset is the one stored where the step fetches it.
theorem test_with_fetch_word :
    (after (State.reset.withFetchWord 16 0x1025)).reg .r0 = 0x0005#16 := by decide

/-! ## The loader (V3 to V6, R273) -/

theorem test_load_image_R273 :
    let m := loadImage [] [0x30#8, 0x00#8, 0x12#8, 0x34#8, 0x56#8, 0x78#8]
    wordAt m 0x3000#16 = 0x1234#16 ∧ wordAt m 0x3001#16 = 0x5678#16 ∧ wordAt m 0x3002#16 = 0x0000#16 := by decide

theorem test_load_image_does_not_wrap_V3 :
    let m := loadImage [] [0xFF#8, 0xFF#8, 0xAB#8, 0xCD#8, 0x11#8, 0x22#8]
    wordAt m 0xFFFF#16 = 0xABCD#16 ∧ wordAt m 0x0000#16 = 0x0000#16 := by decide

theorem test_load_image_odd_and_short_V4_V5 :
    wordAt (loadImage [] [0x30#8, 0x00#8, 0x12#8, 0x34#8, 0x56#8]) 0x3001#16 = 0x0000#16 ∧
      loadImage [] [0x30#8] = [] := by decide

theorem test_boot_overwrites_V6 :
    let s := boot [[0x30#8, 0x00#8, 0x11#8, 0x11#8, 0x22#8, 0x22#8], [0x30#8, 0x01#8, 0x33#8, 0x33#8]]
    s.rawRead 0x3000#16 = 0x1111#16 ∧ s.rawRead 0x3001#16 = 0x3333#16 ∧ s.pc = 0x3000#16 := by decide

/-! ## Witnesses: for every obligation with hypotheses, states and operands that meet them -/

/-- `base` in a console wait, with these answers of the console. -/
def waiting (who : ConsoleRead) (answers : List (Option Byte)) : State :=
  con ((base.setReg .r7 0x3000#16).setActivity (.consoleWait who)) answers

/-- A list of n cells from key lo on, each holding the byte 1. -/
def onesFrom (n lo : Nat) : List Host.Cell :=
  match n with
  | 0 => []
  | n + 1 => (lo, 1#8) :: onesFrom n (lo + 1)

theorem byteAt_onesFrom (n : Nat) : ∀ lo k, lo ≤ k → k < lo + n → byteAt (onesFrom n lo) k = 1#8 := by
  induction n with
  | zero => intro lo k h h'; omega
  | succ n ih =>
    intro lo k h h'
    by_cases e : lo = k
    · simp [onesFrom, byteAt, e]
    · simp only [onesFrom, byteAt, e, if_false]
      exact ih (lo + 1) k (by omega) (by omega)

theorem wfFrom_onesFrom (n : Nat) : ∀ lo, lo + n ≤ 131072 → Memory.wfFrom lo (onesFrom n lo) = true := by
  induction n with
  | zero => intro lo _; rfl
  | succ n ih =>
    intro lo h
    have := ih (lo + 1) (by omega)
    simp [onesFrom, Memory.wfFrom, this]
    omega

/-- `s` with 0x0101 in every cell of memory. -/
def noZeroWord (s : State) : State := s.setMem (onesFrom 131072 0)

theorem rawRead_noZeroWord (s : State) (a : Word) : (noZeroWord s).rawRead a = 0x0101#16 := by
  have h := a.isLt
  simp only [noZeroWord, State.rawRead, State.setMem, wordAt]
  rw [byteAt_onesFrom 131072 0 _ (by omega) (by omega), byteAt_onesFrom 131072 0 _ (by omega) (by omega)]
  rfl

theorem noZeroWord_has_none (s : State) : ∀ a, (noZeroWord s).rawRead a ≠ 0x0000#16 := by
  intro a
  rw [rawRead_noZeroWord]
  decide

/-- `base` inside an endless PUTS at address 0xFFFF. -/
def endless : State := noZeroWord ((base.setReg .r7 0x3000#16).setActivity (.stringLoop .puts 0xFFFF#16))

theorem witness_DecodeEncodeRoundTrip :
    WellFormed (.jmp .r6) = true ∧ WellFormed (.trap 0x1F#8) = true ∧ WellFormed (.trap 0x26#8) = true ∧
      WellFormed (.br true true true (-256#9)) = true ∧ WellFormed .halt = true := by decide

theorem witness_UnusedOperandBitsAreIgnored :
    (fieldOpcode 0x1401#16 = 0x1#4 ∧ (0x1401#16).getLsbD 5 = false ∧ 0x0018#16 &&& ~~~0x0018#16 = 0#16) ∧
    (fieldOpcode 0x5642#16 = 0x5#4 ∧ (0x5642#16).getLsbD 5 = false ∧ 0x0008#16 &&& ~~~0x0018#16 = 0#16) ∧
    (fieldOpcode 0x997F#16 = 0x9#4 ∧ 0x003F#16 &&& ~~~0x003F#16 = 0#16) ∧
    (fieldOpcode 0xC1C0#16 = 0xC#4 ∧ 0x0E3F#16 &&& ~~~0x0E3F#16 = 0#16) ∧
    (fieldOpcode 0x40C0#16 = 0x4#4 ∧ (0x40C0#16).getLsbD 11 = false ∧ 0x063F#16 &&& ~~~0x063F#16 = 0#16) ∧
    (fieldOpcode 0xF025#16 = 0xF#4 ∧ 0x0F00#16 &&& ~~~0x0F00#16 = 0#16) ∧
    (fieldOpcode 0xD000#16 = 0xD#4 ∧ fieldOpcode 0x8000#16 = 0x8#4 ∧ 0x0FFF#16 &&& ~~~0x0FFF#16 = 0#16) := by decide

-- The narrowest and the widest field, a clear and a set sign bit (values by R145).
theorem witness_SignExtensionLaws :
    (1 ≤ 1 ∧ 1 ≤ 16 ∧ sext 1#1 = 0xFFFF#16) ∧ (1 ≤ 16 ∧ 16 ≤ 16 ∧ sext 0x8000#16 = 0x8000#16) ∧
      ((0x0F#5).getLsbD (5 - 1) = false ∧ sext 0x0F#5 = 0x000F#16) := by decide

theorem witness_KeyboardCellsReadAsTheOverlaySays :
    (kbd base [some 0x41#8]).kbdAnswer = some 0x41#8 ∧ (kbd base [none]).kbdAnswer = none := by decide

theorem witness_CanonicalMemoryIsDeterminedByItsWords :
    ∃ m : List Host.Cell, Memory.wf m = true ∧ m = [(0, 0xFF#8), (131071, 0x01#8)] ∧ ∀ a, wordAt m a = wordAt m a :=
  ⟨_, by decide, rfl, fun _ => rfl⟩

-- Word 0 and the last word of an image at the end of memory, and a file that is too short.
theorem witness_LoadImageContents :
    (joinBytes 0xFF#8 0xFF#8).toNat ≤ (0xFFFF#16).toNat ∧ (0xFFFF#16).toNat - (joinBytes 0xFF#8 0xFF#8).toNat < 4 / 2 ∧
      ¬(joinBytes 0xFF#8 0xFF#8).toNat ≤ (0x0000#16).toNat ∧ [0x30#8].length < 2 := by decide

theorem witness_UnloadedMemorySlides :
    let s := base.setPc 0xFFFF#16
    (AtBoundary s ∧ s.env.cancelIn = none) ∧
      ∀ k < 2, s.pc + BitVec.ofNat 16 k ≠ KBSR ∧ s.rawRead (s.pc + BitVec.ofNat 16 k) = 0x0000#16 :=
  ⟨⟨⟨rfl, rfl, rfl⟩, rfl⟩, by decide⟩

theorem witness_Inv_base : Inv base :=
  ⟨rfl, .inr (.inl rfl), fun _ => rfl, fun h => absurd rfl h, nofun⟩

-- At a boundary, in a console wait, and inside an endless string.
theorem witness_StepKeepsTheInvariant :
    (Inv base ∧ ∃ t, step base = .next t) ∧
    (Inv (waiting .inChar [none]) ∧ ∃ t, step (waiting .inChar [none]) = .next t) ∧
    (Inv endless ∧ ∃ t, step endless = .next t) :=
  ⟨⟨witness_Inv_base, _, rfl⟩,
    ⟨⟨rfl, .inr (.inl rfl), fun h => absurd rfl h, fun _ => rfl, nofun⟩, _, rfl⟩,
    ⟨⟨wfFrom_onesFrom 131072 0 (by omega), .inr (.inl rfl), fun h => absurd rfl h, fun _ => rfl,
      fun _ _ _ => noZeroWord_has_none _⟩, _, rfl⟩⟩

theorem witness_RunsFromBootKeepTheInvariant :
    ∃ t : State, Host.Core.run Sys2Proof.core 1 (boot [[0x30#8, 0x00#8, 0xF0#8, 0x25#8]]) = .next t ∧
      t.run = .halted .haltTrap :=
  ⟨_, rfl, rfl⟩

theorem witness_PortHistoryOnlyGrows : ∃ t, step (prog 0x3000#16 0xF021#16) = .next t ∧ t.events ≠ [] :=
  ⟨_, rfl, by decide⟩

theorem witness_StepRunsTheDecodedInstruction :
    (AtBoundary (prog 0x3000#16 0x123D#16) ∧ (prog 0x3000#16 0x123D#16).memRead (prog 0x3000#16 0x123D#16).pc = 0x123D#16 ∧
      decode 0x123D#16 = .addImm .r1 .r0 (-3#5)) ∧
    ((hostCancel base).run = .running ∧ (hostCancel base).activity = .idle ∧ (hostCancel base).cancelPending = true) :=
  ⟨⟨⟨rfl, rfl, rfl⟩, by decide⟩, rfl, rfl, rfl⟩

theorem witness_FetchAtKbsrPolls :
    (AtBoundary (kbd (base.setPc KBSR) [some 0x41#8]) ∧ (base.setPc KBSR).pc = KBSR ∧
      (kbd (base.setPc KBSR) [some 0x41#8]).kbdAnswer = some 0x41#8) ∧
    (AtBoundary (kbd (base.setPc KBSR) [none]) ∧ (kbd (base.setPc KBSR) [none]).kbdAnswer = none) :=
  ⟨⟨⟨rfl, rfl, rfl⟩, rfl, rfl⟩, ⟨rfl, rfl, rfl⟩, rfl⟩

/-- `base` after k steps over zero words. -/
def slide (k : Nat) : State :=
  match k with
  | 0 => base
  | k + 1 => after (slide k)

-- An ST to the next instruction, an STI, an STR, and two steps that neither store to KBDR nor poll.
theorem witness_StoreIsSeenByTheNextFetch :
    (KBDR ≠ KBSR ∧ AtBoundary (prog 0x3000#16 0x3200#16)) ∧
    (let s := prog 0x3000#16 0x3200#16; storeTarget s.fetch (decode s.fetch.ir) = some (s.pc + 1#16, .r1)) ∧
    (let s := prog 0x3000#16 0xB200#16; storeTarget s.fetch (decode s.fetch.ir) = some (0x0000#16, .r1)) ∧
    (let s := prog 0x3000#16 0x7281#16; storeTarget s.fetch (decode s.fetch.ir) = some (0x0001#16, .r1)) ∧
    (∀ k < 2, step (slide k) = .next (slide (k + 1)) ∧
      (∀ r, storeTarget (slide k).fetch (decode (slide k).fetch.ir) ≠ some (KBDR, r)) ∧
      (KBDR = KBDR → ∀ c, PortEvent.kbdConsume c ∉ (slide (k + 1)).events.drop (slide k).events.length)) := by
  refine ⟨⟨by decide, rfl, rfl, rfl⟩, by decide, by decide, by decide, fun k hk => ?_⟩
  have none : storeTarget (slide k).fetch (decode (slide k).fetch.ir) = none := by
    revert k
    decide
  have quiet : (slide (k + 1)).events.drop (slide k).events.length = [] := by
    revert k
    decide
  obtain rfl | rfl : k = 0 ∨ k = 1 := by omega
  · exact ⟨rfl, fun r => by rw [none]; nofun, fun _ c => by rw [quiet]; nofun⟩
  · exact ⟨rfl, fun r => by rw [none]; nofun, fun _ c => by rw [quiet]; nofun⟩

theorem witness_FinalStatesTakeNoStep :
    (base.setRun (.halted .cancel)).run ≠ .running ∧ (base.setRun (.aborted .reservedOpcode)).run ≠ .running := by decide

theorem witness_CancellationIsTakenAtABoundaryOrInAWait :
    ((hostCancel base).run = .running ∧ (hostCancel base).cancelPending = true ∧ (hostCancel base).activity = .idle) ∧
    (∀ who, base.activity ≠ .consoleWait who) ∧
    ((waiting .getc []).run = .running ∧ (waiting .getc []).activity = .consoleWait .getc) ∧
    (let s := (waiting .getc []).setCancelPending true
     s.run = .running ∧ s.cancelPending = true ∧ s.activity = .consoleWait .getc) ∧
    (let s := con (prog 0x3000#16 0xF023#16) [none]
     let s := s.setEnv { s.env with cancelIn := some 0 }
     AtBoundary s ∧ s.env.cancelIn = some 0 ∧ readsConsole (decode s.fetch.ir) = true ∧ s.fetch.conAnswer = none) ∧
    (endless.run = .running ∧ endless.activity = .stringLoop .puts 0xFFFF#16) :=
  ⟨⟨rfl, rfl, rfl⟩, nofun, ⟨rfl, rfl⟩, ⟨rfl, rfl, rfl⟩, ⟨⟨rfl, rfl, rfl⟩, by decide⟩, rfl, rfl⟩

theorem witness_ConsoleWaitChangesNothing :
    let s := waiting .getc []
    s.run = .running ∧ s.activity = .consoleWait .getc ∧ s.cancelPending = false := by decide

theorem witness_ConsoleWaitEndsWithTheByte :
    let s := waiting .getc []
    let t := waiting .inChar []
    (s.run = .running ∧ s.activity = .consoleWait .getc ∧ s.cancelPending = false) ∧
    (t.run = .running ∧ t.activity = .consoleWait .inChar ∧ t.cancelPending = false) := by decide

-- A step from a boundary that completes, one that no byte answers, and a step that never completes.
theorem witness_EveryInstructionAndStepGivesANextState :
    (AtBoundary (prog 0x3000#16 0x1021#16) ∧ ∃ t, step (prog 0x3000#16 0x1021#16) = .next t ∧ t.activity = .idle) ∧
    (AtBoundary (con (prog 0x3000#16 0xF020#16) [none]) ∧
      ∃ t, step (con (prog 0x3000#16 0xF020#16) [none]) = .next t ∧ t.activity = .consoleWait .getc) ∧
    (endless.activity ≠ .idle ∧ ∃ t, step endless = .next t) :=
  ⟨⟨⟨rfl, rfl, rfl⟩, _, rfl, rfl⟩, ⟨⟨rfl, rfl, rfl⟩, _, rfl, rfl⟩, nofun, _, rfl⟩

-- Each of the six events.
theorem witness_OnlyTheseEventsEndARun :
    (after (hostCancel base)).run = .halted .cancel ∧
    (let s := con (prog 0x3000#16 0xF020#16) [none]
     (after (s.setEnv { s.env with cancelIn := some 0 })).run = .halted .cancel) ∧ (after (prog 0x3000#16 0xF025#16)).run = .halted .haltTrap ∧
    (after (prog 0x3000#16 0xD000#16)).run = .aborted .reservedOpcode ∧
    (after (prog 0x3000#16 0x8000#16)).run = .aborted .rtiOpcode ∧
    (after (prog 0x3000#16 0xF0FF#16)).run = .aborted (.undefinedTrap 0xFF#8) := by decide

theorem witness_AbortIsPrecise :
    (AtBoundary (prog 0x3000#16 0xD000#16) ∧ ∃ t, step (prog 0x3000#16 0xD000#16) = .next t ∧
      t.run = .aborted .reservedOpcode) ∧
    (AtBoundary (prog 0x3000#16 0xF000#16) ∧ ∃ t, step (prog 0x3000#16 0xF000#16) = .next t ∧
      t.run = .aborted (.undefinedTrap 0x00#8)) :=
  ⟨⟨⟨rfl, rfl, rfl⟩, _, rfl, by decide⟩, ⟨rfl, rfl, rfl⟩, _, rfl, by decide⟩

theorem witness_OnlyListedInstructionsWriteCond :
    (∃ t, exec (.st .r0 0#9) base = .next t ∧ flagDest (.st .r0 0#9) = none) ∧
    (∃ t, exec (.lea .r7 0#9) base = .next t ∧ flagDest (.lea .r7 0#9) = some .r7) ∧
    (∃ t, exec .getc (con base [none]) = .next t ∧ flagDest .getc = some .r0 ∧ (con base [none]).conAnswer = none) :=
  ⟨⟨_, rfl, rfl⟩, ⟨_, rfl, rfl⟩, _, rfl, rfl, rfl⟩

theorem witness_OnlyBranchesReadCond : ∀ n z p off9, Instr.ret ≠ .br n z p off9 := nofun

theorem witness_OnlyListedRegistersAreWritten :
    (∃ t, exec (.jsr 0#11) base = .next t ∧ writesReg (.jsr 0#11) .r6 = false) ∧
    (∃ t, exec .getc (con base [some 0x61#8]) = .next t ∧ writesReg .getc .r1 = false) :=
  ⟨⟨_, rfl, rfl⟩, _, rfl, rfl⟩

theorem witness_OnlyControlTransfersWritePc : ∃ t, exec (.trap 0x26#8) base = .next t ∧ writesPc (.trap 0x26#8) = false :=
  ⟨_, rfl, rfl⟩

theorem witness_OnlyStoresAndPollsWriteMemory :
    (∃ t, exec .puts base = .next t ∧ isStore .puts = false ∧ isLoad .puts = false) ∧
    (∃ t, exec (.ldr .r1 .r0 0#6) (base.setReg .r0 KBSR) = .next t ∧ isStore (.ldr .r1 .r0 0#6) = false) ∧
    (0x0000#16 ≠ KBSR ∧ 0x0000#16 ≠ KBDR) :=
  ⟨⟨_, rfl, rfl, rfl⟩, ⟨_, rfl, rfl⟩, by decide⟩

-- The decoding clause of each instruction's statement: words of its opcode, the smallest and the largest where the clause names no
-- other bit.
theorem witness_opcodes :
    (fieldOpcode 0x1000#16 = 0x1#4 ∧ fieldOpcode 0x1FFF#16 = 0x1#4) ∧ (fieldOpcode 0x5000#16 = 0x5#4 ∧ fieldOpcode 0x5FFF#16 = 0x5#4) ∧
    (fieldOpcode 0x9000#16 = 0x9#4 ∧ fieldOpcode 0x9FFF#16 = 0x9#4) ∧ (fieldOpcode 0x2000#16 = 0x2#4 ∧ fieldOpcode 0x2FFF#16 = 0x2#4) ∧
    (fieldOpcode 0xA000#16 = 0xA#4 ∧ fieldOpcode 0xAFFF#16 = 0xA#4) ∧ (fieldOpcode 0x6000#16 = 0x6#4 ∧ fieldOpcode 0x6FFF#16 = 0x6#4) ∧
    (fieldOpcode 0xE000#16 = 0xE#4 ∧ fieldOpcode 0xEFFF#16 = 0xE#4) ∧ (fieldOpcode 0x3000#16 = 0x3#4 ∧ fieldOpcode 0x3FFF#16 = 0x3#4) ∧
    (fieldOpcode 0xB000#16 = 0xB#4 ∧ fieldOpcode 0xBFFF#16 = 0xB#4) ∧ (fieldOpcode 0x7000#16 = 0x7#4 ∧ fieldOpcode 0x7FFF#16 = 0x7#4) ∧
    (fieldOpcode 0x0000#16 = 0x0#4 ∧ fieldOpcode 0x0FFF#16 = 0x0#4) ∧ (fieldOpcode 0xC000#16 = 0xC#4 ∧ fieldOpcode 0xCFFF#16 = 0xC#4) ∧
    (fieldOpcode 0xF000#16 = 0xF#4 ∧ fieldOpcode 0xFFFF#16 = 0xF#4) ∧ (fieldOpcode 0xD000#16 = 0xD#4 ∧ fieldOpcode 0xDFFF#16 = 0xD#4) ∧
    (fieldOpcode 0x8000#16 = 0x8#4 ∧ fieldOpcode 0x8FFF#16 = 0x8#4) ∧
    (fieldOpcode 0x4FFF#16 = 0x4#4 ∧ (0x4FFF#16).getLsbD 11 = true ∧ fieldOpcode 0x4000#16 = 0x4#4 ∧
      (0x4000#16).getLsbD 11 = false) := by decide

theorem witness_ImmediateAndRegisterFormsAgree : (base.setReg .r2 0xFFF0#16).reg .r2 = sext (-16#5) := by decide

theorem witness_LdLoadsPcRelative :
    let s := kbd (base.setPc 0xFDFF#16) [some 0x41#8]
    let t := kbd (base.setPc 0xFDFF#16) [none]
    (s.pc + sext 1#9 = KBSR ∧ s.kbdAnswer.isSome = true) ∧ (t.pc + sext 1#9 = KBSR ∧ t.kbdAnswer = none) := by decide

-- Taken by each flag, and not taken: by no flag asserted, and by an asserted flag that COND does not hold.
theorem witness_BrBranchesOnCond :
    ((base.setCond NEG).cond = NEG ∧ base.cond = ZRO ∧ (base.setCond POS).cond = POS) ∧
    ¬((false = true ∧ base.cond = NEG) ∨ (false = true ∧ base.cond = ZRO) ∨ (false = true ∧ base.cond = POS)) ∧
    ¬((true = true ∧ base.cond = NEG) ∨ (false = true ∧ base.cond = ZRO) ∨ (true = true ∧ base.cond = POS)) ∧
    CondLegal POS ∧ CondLegal ZRO ∧ CondLegal NEG :=
  ⟨by decide, by decide, by decide, .inl rfl, .inr (.inl rfl), .inr (.inr rfl)⟩

theorem witness_JsrrCallsThroughTheBase : Reg.r7 = .r7 ∧ Reg.r6 ≠ .r7 := by decide

theorem witness_CallReturnRoundTrip :
    (AtBoundary (prog 0xFFFF#16 0x4FFF#16) ∧ decode (prog 0xFFFF#16 0x4FFF#16).fetch.ir = .jsr (-1#11)) ∧
    (AtBoundary (prog 0x3000#16 0x40C0#16) ∧ decode (prog 0x3000#16 0x40C0#16).fetch.ir = .jsrr .r3 ∧ Reg.r3 ≠ .r7) ∧
    (let u := (prog 0x5000#16 0xC1C0#16).setReg .r7 0x3001#16
     AtBoundary u ∧ u.reg .r7 = (after (prog 0x3000#16 0x40C0#16)).reg .r7 ∧ decode u.fetch.ir = .ret) :=
  ⟨⟨⟨rfl, rfl, rfl⟩, by decide⟩, ⟨⟨rfl, rfl, rfl⟩, by decide⟩, ⟨rfl, rfl, rfl⟩, by decide⟩

-- For GetcReadsOneCharacter and InPromptsReadsAndEchoes.
theorem witness_console_answers :
    (con base [some 0x00#8]).conAnswer = some 0x00#8 ∧ (con base [some 0xFF#8]).conAnswer = some 0xFF#8 ∧
      (con base [none]).conAnswer = none := by decide

-- For PutsWritesTheString and PutspWritesThePackedString: an empty string, and one of two words across the end of memory.
theorem witness_strings :
    let s := base.setReg .r0 0x4000#16
    let t := ((base.setReg .r0 0xFFFF#16).memWrite 0xFFFF#16 0x6548#16).memWrite 0x0000#16 0x4100#16
    (0 < 65536 ∧ (∀ k < 0, s.rawRead (s.reg .r0 + BitVec.ofNat 16 k) ≠ 0x0000#16) ∧
      s.rawRead (s.reg .r0 + BitVec.ofNat 16 0) = 0x0000#16) ∧
    (2 < 65536 ∧ (∀ k < 2, t.rawRead (t.reg .r0 + BitVec.ofNat 16 k) ≠ 0x0000#16) ∧
      t.rawRead (t.reg .r0 + BitVec.ofNat 16 2) = 0x0000#16) := by decide

-- The vectors also for the last but one clause of TrapSavesPcAndDispatches.
theorem witness_UndefinedVectorFollowsThePolicy :
    ((0x00#8).toNat < 0x20 ∨ 0x25 < (0x00#8).toNat) ∧ ((0x1F#8).toNat < 0x20 ∨ 0x25 < (0x1F#8).toNat) ∧
    ((0x26#8).toNat < 0x20 ∨ 0x25 < (0x26#8).toNat) ∧ ((0xFF#8).toNat < 0x20 ∨ 0x25 < (0xFF#8).toNat) ∧
    base.params.undefinedTrapPolicy = .abort ∧
    ({ base with params := ⟨.noop, [], []⟩ } : State).params.undefinedTrapPolicy = .noop := by decide

theorem witness_StringWithoutTerminatorNeverEnds :
    (∀ a, (noZeroWord base).rawRead a ≠ 0x0000#16) ∧
    (endless.run = .running ∧ endless.activity = .stringLoop .puts 0xFFFF#16 ∧ ∀ b, endless.rawRead b ≠ 0x0000#16) ∧
    (∃ a, base.rawRead a = 0x0000#16) :=
  ⟨noZeroWord_has_none _, ⟨rfl, rfl, noZeroWord_has_none _⟩, 0x0000#16, by decide⟩

end Sys2Proof.Tests
end

section
/-!
PROOFS. Who writes COND (10_state.md R46, R47). First what the shared operations and the trap routines do to COND, then the two sides
of the rule over all instructions: one that names no flag register keeps COND; one that names a flag register ends in `writeDest` to
that register or in the console read of GETC and IN.
-/

namespace Sys2Proof.Proofs

open Sys2Proof.Machine Sys2Proof.Safety Sys2Proof.Laws

/-! ## The condition code of a value -/

/-- `condOf` computes the code that R45 and R147 describe by sign. -/
theorem flagsOf_condOf (v : Word) : FlagsOf v (condOf v) := by
  rw [condOf_eq]
  refine ⟨fun hz => if_pos hz, fun hn => ?_, fun hp => ?_⟩
  · rw [if_neg hn.ne, if_pos hn]
  · rw [if_neg hp.ne', if_neg hp.not_gt]

theorem flagsOf_writeDest (s : State) (r : Reg) (v : Word) :
    FlagsOf ((s.writeDest r v).reg r) (s.writeDest r v).cond := by
  simpa using flagsOf_condOf v

/-- With a byte, R0 holds it, zero-extended, when the read of GETC or IN is over (R211, R214). -/
theorem reg_r0_conReadFor_of_byte {s : State} {b : Byte} (h : s.conAnswer = some b) (who : ConsoleRead) :
    (s.conReadFor who).reg .r0 = zext8 b := by
  simp [conReadFor_eq, h, finishRead_eq]

/-- The console read of GETC and IN leaves COND alone while no byte comes, and ends with COND set from R0 once one has (R50). -/
theorem conReadFor_keeps_cond_or_sets_flags (s : State) (who : ConsoleRead) :
    (s.conAnswer = none ∧ (s.conReadFor who).cond = s.cond) ∨
      FlagsOf ((s.conReadFor who).reg .r0) (s.conReadFor who).cond := by
  rw [conReadFor_cond]
  cases h : s.conAnswer with
  | none => exact .inl ⟨rfl, rfl⟩
  | some b =>
    rw [reg_r0_conReadFor_of_byte h]
    exact .inr (flagsOf_condOf _)

/-! ## Operations and routines that keep COND -/

@[simp] theorem memWrite_cond (s : State) (a v : Word) : (s.memWrite a v).cond = s.cond := rfl
@[simp] theorem conWrite_cond (s : State) (bs : List Byte) : (s.conWrite bs).cond = s.cond := rfl
@[simp] theorem outRoutine_cond (s : State) : s.outRoutine.cond = s.cond := rfl
@[simp] theorem haltRoutine_cond (s : State) : s.haltRoutine.cond = s.cond := rfl
@[simp] theorem putsRoutine_cond (s : State) : s.putsRoutine.cond = s.cond := writeString_cond s .puts
@[simp] theorem putspRoutine_cond (s : State) : s.putspRoutine.cond = s.cond := writeString_cond s .putsp

@[simp] theorem undefinedTrap_cond (s : State) (v : BitVec 8) : (s.undefinedTrap v).cond = s.cond := by
  rw [undefinedTrap_eq, setRun_cond]

theorem isReadVector_iff {v : BitVec 8} : isReadVector v = true ↔ v = 0x20#8 ∨ v = 0x23#8 := by
  simp [isReadVector]

/-- Only the vectors of GETC and IN select a routine that writes COND (R47, R219). -/
theorem dispatchTrap_cond_of_not_read {v : BitVec 8} (hv : isReadVector v = false) (s : State) :
    (s.dispatchTrap v).cond = s.cond := by
  obtain ⟨rfl, -⟩ | ⟨-, e⟩ | ⟨-, e⟩ | ⟨rfl, -⟩ | ⟨-, e⟩ | ⟨-, e⟩ | ⟨-, e⟩ := dispatchTrap_cases s v
  · cases hv
  · rw [e, outRoutine_cond]
  · rw [e, putsRoutine_cond]
  · cases hv
  · rw [e, putspRoutine_cond]
  · rw [e, haltRoutine_cond]
  · rw [e, undefinedTrap_cond]

/-! ## The rule over all instructions -/

theorem flagDest_trap_eq_none_iff {v : BitVec 8} : flagDest (.trap v) = none ↔ isReadVector v = false := by
  simp [flagDest]

/-- An instruction of R47's list keeps COND. -/
theorem exec_keeps_cond {i : Instr} {s t : State} (h : exec i s = .next t) (hi : flagDest i = none) : t.cond = s.cond := by
  cases i
  case addReg | addImm | andReg | andImm | not | ld | ldi | ldr | lea | getc | inChar => cases hi
  case st | str | jmp | ret | jsr | jsrr | rti | res | out | halt => cases h; rfl
  case sti sr off9 =>
    cases h
    rw [memWrite_cond, afterRead_cond]
  case br n z p off9 =>
    cases h
    split <;> rfl
  case puts =>
    cases h
    rw [putsRoutine_cond, link_cond]
  case putsp =>
    cases h
    rw [putspRoutine_cond, link_cond]
  case trap v =>
    cases h
    rw [dispatchTrap_cond_of_not_read (flagDest_trap_eq_none_iff.1 hi), link_cond]

/-- The end of every instruction that names a flag register (R46): a `writeDest` to it, or, for GETC and IN, the console read
into R0, from a state with the same COND and the same answer of the console. -/
theorem exec_of_flagDest {i : Instr} {r : Reg} (hi : flagDest i = some r) (s : State) :
    (∃ (u : State) (v : Word), exec i s = .next (u.writeDest r v)) ∨
    (readsConsole i = true ∧ r = .r0 ∧
      ∃ (u : State) (who : ConsoleRead), exec i s = .next (u.conReadFor who) ∧ u.conAnswer = s.conAnswer ∧ u.cond = s.cond) := by
  cases i
  case st | sti | str | br | jmp | ret | jsr | jsrr | rti | res | out | puts | putsp | halt => cases hi
  case addReg | addImm | andReg | andImm | not | ld | ldi | ldr | lea => cases hi; exact .inl ⟨_, _, rfl⟩
  case getc | inChar => cases hi; exact .inr ⟨rfl, rfl, _, _, rfl, rfl, rfl⟩
  case trap v =>
    have hv : isReadVector v = true := by
      by_contra hn
      simp [flagDest, hn] at hi
    obtain rfl | rfl := isReadVector_iff.1 hv <;> cases hi <;> exact .inr ⟨rfl, rfl, _, _, rfl, rfl, rfl⟩

/-- An instruction of R46's list leaves in COND the code of its destination register; GETC and IN once their byte has come. -/
theorem exec_sets_flags {i : Instr} {s t : State} {r : Reg} (h : exec i s = .next t) (hi : flagDest i = some r) :
    (readsConsole i = true ∧ s.conAnswer = none ∧ t.cond = s.cond) ∨ FlagsOf (t.reg r) t.cond := by
  obtain ⟨u, v, e⟩ | ⟨hread, rfl, u, who, e, hans, hcond⟩ := exec_of_flagDest hi s
  · obtain rfl := Host.Outcome.next.inj (h.symm.trans e)
    exact .inr (flagsOf_writeDest u r v)
  · obtain rfl := Host.Outcome.next.inj (h.symm.trans e)
    rw [← hans, ← hcond]
    exact (conReadFor_keeps_cond_or_sets_flags u who).imp_left fun kept => ⟨hread, kept⟩

/-- Settles O29: R47's instructions by `exec_keeps_cond`, R46's by `exec_sets_flags`. -/
theorem onlyListedInstructionsWriteCond : Obligations.OnlyListedInstructionsWriteCond := by
  unfold Obligations.OnlyListedInstructionsWriteCond
  exact fun i s t h => ⟨exec_keeps_cond h, fun r => exec_sets_flags h⟩

end Sys2Proof.Proofs
end

section
/-!
PROOFS. MemWrite (20_memory.md R73): what it leaves unchanged, one lemma for each part of the state that a statement's frame speaks of.
What it does to the cells is `Laws.rawRead_memWrite`.
-/

namespace Sys2Proof.Proofs

open Sys2Proof.Machine Sys2Proof.Safety Sys2Proof.Laws

/-! ## The frame of MemWrite -/

@[simp] theorem reg_memWrite (s : State) (a v : Word) (r : Reg) : (s.memWrite a v).reg r = s.reg r := rfl
@[simp] theorem memWrite_pc (s : State) (a v : Word) : (s.memWrite a v).pc = s.pc := rfl

theorem rawRead_memWrite_of_ne {a b : Word} (h : b ≠ a) (s : State) (v : Word) :
    (s.memWrite a v).rawRead b = s.rawRead b := by
  rw [rawRead_memWrite, if_neg h]

theorem sameRegsBut_memWrite (ds : List Reg) (s : State) (a v : Word) : SameRegsBut ds s (s.memWrite a v) :=
  fun r _ => reg_memWrite s a v r

/-- MemWrite reports no event and takes no answer of the environment, at KBSR and KBDR neither. -/
theorem samePorts_memWrite (s : State) (a v : Word) : SamePorts s (s.memWrite a v) := by
  rw [memWrite_eq]
  exact ⟨setMem_events s _, setMem_env s _⟩

theorem sameControl_memWrite (s : State) (a v : Word) : SameControl s (s.memWrite a v) := by
  rw [memWrite_eq]
  exact ⟨setMem_run s _, setMem_cancelPending s _, setMem_ir s _, setMem_params s _⟩

theorem sameRest_memWrite (s : State) (a v : Word) : SameRest s (s.memWrite a v) :=
  ⟨sameControl_memWrite s a v, setMem_activity s _⟩

/-- Settles O9: the cells by `rawRead_memWrite`, the rest by the frame lemmas of `memWrite`. -/
theorem memWriteStoresEverywhere : Obligations.MemWriteStoresEverywhere := by
  unfold Obligations.MemWriteStoresEverywhere
  intro s a v
  exact ⟨rawRead_memWrite_self s a v, fun _ hne => rawRead_memWrite_of_ne hne s v, sameRegsBut_memWrite [] s a v,
    memWrite_pc s a v, memWrite_cond s a v, samePorts_memWrite s a v, sameRest_memWrite s a v⟩

end Sys2Proof.Proofs
end

section
/-!
PROOFS. The decoder (30_encoding.md R101 to R108). First the decoder's equation for each opcode, and for each form where the opcode has
two; then that the instruction tells the opcode and the mode bit of its word (R108), and that the bits R107 lists do not take part.
-/

namespace Sys2Proof.Proofs

/-! ## The decoder's equations -/

section
variable {w : Word}

theorem decode_br (h : fieldOpcode w = 0x0#4) :
    decode w = .br (w.getLsbD 11) (w.getLsbD 10) (w.getLsbD 9) (fieldOff9 w) := by
  simp [decode, h]

theorem decode_add (h : fieldOpcode w = 0x1#4) :
    decode w = if w.getLsbD 5 then .addImm (fieldR9 w) (fieldR6 w) (fieldImm5 w)
      else .addReg (fieldR9 w) (fieldR6 w) (fieldR0 w) := by
  simp [decode, h]

theorem decode_ld (h : fieldOpcode w = 0x2#4) : decode w = .ld (fieldR9 w) (fieldOff9 w) := by
  simp [decode, h]

theorem decode_st (h : fieldOpcode w = 0x3#4) : decode w = .st (fieldR9 w) (fieldOff9 w) := by
  simp [decode, h]

theorem decode_call (h : fieldOpcode w = 0x4#4) :
    decode w = if w.getLsbD 11 then .jsr (fieldOff11 w) else .jsrr (fieldR6 w) := by
  simp [decode, h]

theorem decode_and (h : fieldOpcode w = 0x5#4) :
    decode w = if w.getLsbD 5 then .andImm (fieldR9 w) (fieldR6 w) (fieldImm5 w)
      else .andReg (fieldR9 w) (fieldR6 w) (fieldR0 w) := by
  simp [decode, h]

theorem decode_ldr (h : fieldOpcode w = 0x6#4) : decode w = .ldr (fieldR9 w) (fieldR6 w) (fieldOff6 w) := by
  simp [decode, h]

theorem decode_str (h : fieldOpcode w = 0x7#4) : decode w = .str (fieldR9 w) (fieldR6 w) (fieldOff6 w) := by
  simp [decode, h]

theorem decode_rti (h : fieldOpcode w = 0x8#4) : decode w = .rti := by
  simp [decode, h]

theorem decode_not (h : fieldOpcode w = 0x9#4) : decode w = .not (fieldR9 w) (fieldR6 w) := by
  simp [decode, h]

theorem decode_ldi (h : fieldOpcode w = 0xA#4) : decode w = .ldi (fieldR9 w) (fieldOff9 w) := by
  simp [decode, h]

theorem decode_sti (h : fieldOpcode w = 0xB#4) : decode w = .sti (fieldR9 w) (fieldOff9 w) := by
  simp [decode, h]

theorem decode_jmp (h : fieldOpcode w = 0xC#4) : decode w = decodeJmp (fieldR6 w) := by
  simp [decode, h]

theorem decode_res (h : fieldOpcode w = 0xD#4) : decode w = .res := by
  simp [decode, h]

theorem decode_lea (h : fieldOpcode w = 0xE#4) : decode w = .lea (fieldR9 w) (fieldOff9 w) := by
  simp [decode, h]

theorem decode_trap (h : fieldOpcode w = 0xF#4) : decode w = decodeTrap (fieldVect8 w) := by
  simp [decode, h]

theorem decode_addImm (h : fieldOpcode w = 0x1#4) (h5 : w.getLsbD 5 = true) :
    decode w = .addImm (fieldR9 w) (fieldR6 w) (fieldImm5 w) := by
  rw [decode_add h, h5, if_pos rfl]

theorem decode_addReg (h : fieldOpcode w = 0x1#4) (h5 : w.getLsbD 5 = false) :
    decode w = .addReg (fieldR9 w) (fieldR6 w) (fieldR0 w) := by
  rw [decode_add h, h5, if_neg Bool.false_ne_true]

theorem decode_andImm (h : fieldOpcode w = 0x5#4) (h5 : w.getLsbD 5 = true) :
    decode w = .andImm (fieldR9 w) (fieldR6 w) (fieldImm5 w) := by
  rw [decode_and h, h5, if_pos rfl]

theorem decode_andReg (h : fieldOpcode w = 0x5#4) (h5 : w.getLsbD 5 = false) :
    decode w = .andReg (fieldR9 w) (fieldR6 w) (fieldR0 w) := by
  rw [decode_and h, h5, if_neg Bool.false_ne_true]

theorem decode_jsr (h : fieldOpcode w = 0x4#4) (h11 : w.getLsbD 11 = true) : decode w = .jsr (fieldOff11 w) := by
  rw [decode_call h, h11, if_pos rfl]

theorem decode_jsrr (h : fieldOpcode w = 0x4#4) (h11 : w.getLsbD 11 = false) : decode w = .jsrr (fieldR6 w) := by
  rw [decode_call h, h11, if_neg Bool.false_ne_true]

end

/-! ## The opcode and the mode bit of an instruction's word -/

/-- The opcode map of R102 has no gap. -/
theorem opcode_cases (o : BitVec 4) :
    o = 0x0#4 ∨ o = 0x1#4 ∨ o = 0x2#4 ∨ o = 0x3#4 ∨ o = 0x4#4 ∨ o = 0x5#4 ∨ o = 0x6#4 ∨ o = 0x7#4 ∨
    o = 0x8#4 ∨ o = 0x9#4 ∨ o = 0xA#4 ∨ o = 0xB#4 ∨ o = 0xC#4 ∨ o = 0xD#4 ∨ o = 0xE#4 ∨ o = 0xF#4 := by
  revert o
  decide

@[simp] theorem opcodeOf_decodeJmp (base : Reg) : opcodeOf (decodeJmp base) = 0xC#4 := by
  unfold decodeJmp
  split <;> rfl

@[simp] theorem opcodeOf_decodeTrap (v : BitVec 8) : opcodeOf (decodeTrap v) = 0xF#4 := by
  unfold decodeTrap
  repeat' split
  all_goals rfl

theorem opcodeOf_decode (w : Word) : opcodeOf (decode w) = fieldOpcode w := by
  obtain h | h | h | h | h | h | h | h | h | h | h | h | h | h | h | h := opcode_cases (fieldOpcode w)
  · rw [decode_br h, h, opcodeOf]
  · rw [decode_add h, h]; split <;> rfl
  · rw [decode_ld h, h, opcodeOf]
  · rw [decode_st h, h, opcodeOf]
  · rw [decode_call h, h]; split <;> rfl
  · rw [decode_and h, h]; split <;> rfl
  · rw [decode_ldr h, h, opcodeOf]
  · rw [decode_str h, h, opcodeOf]
  · rw [decode_rti h, h, opcodeOf]
  · rw [decode_not h, h, opcodeOf]
  · rw [decode_ldi h, h, opcodeOf]
  · rw [decode_sti h, h, opcodeOf]
  · rw [decode_jmp h, h, opcodeOf_decodeJmp]
  · rw [decode_res h, h, opcodeOf]
  · rw [decode_lea h, h, opcodeOf]
  · rw [decode_trap h, h, opcodeOf_decodeTrap]

/-- The mode bit (R106) of an instruction whose opcode has two forms; false for every other. -/
def modeBit : Instr → Bool
  | .addImm _ _ _ | .andImm _ _ _ | .jsr _ => true
  | _ => false

section
variable {w : Word} {i : Instr}

theorem fieldOpcode_of_decode (e : decode w = i) : fieldOpcode w = opcodeOf i := by
  rw [← e, opcodeOf_decode]

/-- An ADD tells the form its word has. -/
theorem mode_of_decode_add (e : decode w = i) (hi : opcodeOf i = 0x1#4) :
    fieldOpcode w = 0x1#4 ∧ w.getLsbD 5 = modeBit i := by
  have h := (fieldOpcode_of_decode e).trans hi
  rw [← e, decode_add h]
  cases w.getLsbD 5 <;> exact ⟨h, rfl⟩

/-- An AND tells the form its word has. -/
theorem mode_of_decode_and (e : decode w = i) (hi : opcodeOf i = 0x5#4) :
    fieldOpcode w = 0x5#4 ∧ w.getLsbD 5 = modeBit i := by
  have h := (fieldOpcode_of_decode e).trans hi
  rw [← e, decode_and h]
  cases w.getLsbD 5 <;> exact ⟨h, rfl⟩

/-- A call tells whether its word is JSR's or JSRR's. -/
theorem mode_of_decode_call (e : decode w = i) (hi : opcodeOf i = 0x4#4) :
    fieldOpcode w = 0x4#4 ∧ w.getLsbD 11 = modeBit i := by
  have h := (fieldOpcode_of_decode e).trans hi
  rw [← e, decode_call h]
  cases w.getLsbD 11 <;> exact ⟨h, rfl⟩

end

/-- Settles O4: the opcode by `opcodeOf_decode`; a form from its bits by its equation of the decoder, and the bits from the form by
`modeBit`. -/
theorem opcodeAndModeBitsSelectTheInstruction : Obligations.OpcodeAndModeBitsSelectTheInstruction := by
  unfold Obligations.OpcodeAndModeBitsSelectTheInstruction
  exact fun w => ⟨opcodeOf_decode w,
    ⟨fun ⟨h, h5⟩ => ⟨_, _, _, decode_addImm h h5⟩, fun ⟨_, _, _, e⟩ => mode_of_decode_add e rfl⟩,
    ⟨fun ⟨h, h5⟩ => ⟨_, _, _, decode_addReg h h5⟩, fun ⟨_, _, _, e⟩ => mode_of_decode_add e rfl⟩,
    ⟨fun ⟨h, h5⟩ => ⟨_, _, _, decode_andImm h h5⟩, fun ⟨_, _, _, e⟩ => mode_of_decode_and e rfl⟩,
    ⟨fun ⟨h, h5⟩ => ⟨_, _, _, decode_andReg h h5⟩, fun ⟨_, _, _, e⟩ => mode_of_decode_and e rfl⟩,
    ⟨fun ⟨h, h11⟩ => ⟨_, decode_jsr h h11⟩, fun ⟨_, e⟩ => mode_of_decode_call e rfl⟩,
    ⟨fun ⟨h, h11⟩ => ⟨_, decode_jsrr h h11⟩, fun ⟨_, e⟩ => mode_of_decode_call e rfl⟩⟩

/-! ## Flipping unused bits

Throughout, m is the mask of the bits that may be flipped and u, inside m, flips some of them. A field that has no bit in m keeps its
value; each format's mask spares the opcode, the mode bit and the fields that the format's equation of the decoder names.
-/

section
variable {w u m : Word}

theorem eq_and_mask (hu : u &&& ~~~m = 0#16) : u = u &&& m := by
  ext k hk
  have clear : (u &&& ~~~m)[k] = false := by simp [hu]
  simpa using clear

theorem getLsbD_xor_of_unused {k : Nat} (hu : u &&& ~~~m = 0#16) (hm : m.getLsbD k = false) :
    (w ^^^ u).getLsbD k = w.getLsbD k := by
  have clear : u.getLsbD k = false := by
    rw [eq_and_mask hu, BitVec.getLsbD_and, hm, Bool.and_false]
  rw [BitVec.getLsbD_xor, clear, Bool.xor_false]

theorem extractLsb'_xor_of_unused {lo n : Nat} (hu : u &&& ~~~m = 0#16) (hm : m.extractLsb' lo n = 0#n) :
    (w ^^^ u).extractLsb' lo n = w.extractLsb' lo n := by
  have clear : u.extractLsb' lo n = 0#n := by
    rw [eq_and_mask hu, BitVec.extractLsb'_and, hm, BitVec.and_zero]
  rw [BitVec.extractLsb'_xor, clear, BitVec.xor_zero]

theorem fieldOpcode_xor_of_unused (hu : u &&& ~~~m = 0#16) (hm : m.extractLsb' 12 4 = 0#4) :
    fieldOpcode (w ^^^ u) = fieldOpcode w :=
  extractLsb'_xor_of_unused hu hm

theorem fieldR9_xor_of_unused (hu : u &&& ~~~m = 0#16) (hm : m.extractLsb' 9 3 = 0#3) :
    fieldR9 (w ^^^ u) = fieldR9 w :=
  congrArg Reg.ofBits (extractLsb'_xor_of_unused hu hm)

theorem fieldR6_xor_of_unused (hu : u &&& ~~~m = 0#16) (hm : m.extractLsb' 6 3 = 0#3) :
    fieldR6 (w ^^^ u) = fieldR6 w :=
  congrArg Reg.ofBits (extractLsb'_xor_of_unused hu hm)

theorem fieldR0_xor_of_unused (hu : u &&& ~~~m = 0#16) (hm : m.extractLsb' 0 3 = 0#3) :
    fieldR0 (w ^^^ u) = fieldR0 w :=
  congrArg Reg.ofBits (extractLsb'_xor_of_unused hu hm)

theorem fieldVect8_xor_of_unused (hu : u &&& ~~~m = 0#16) (hm : m.extractLsb' 0 8 = 0#8) :
    fieldVect8 (w ^^^ u) = fieldVect8 w :=
  extractLsb'_xor_of_unused hu hm

theorem decode_xor_of_addReg (h : fieldOpcode w = 0x1#4) (h5 : w.getLsbD 5 = false) (hu : u &&& ~~~0x0018#16 = 0#16) :
    decode (w ^^^ u) = decode w := by
  have h' := (fieldOpcode_xor_of_unused hu rfl).trans h
  have h5' := (getLsbD_xor_of_unused hu rfl).trans h5
  rw [decode_addReg h h5, decode_addReg h' h5', fieldR9_xor_of_unused hu rfl, fieldR6_xor_of_unused hu rfl,
    fieldR0_xor_of_unused hu rfl]

theorem decode_xor_of_andReg (h : fieldOpcode w = 0x5#4) (h5 : w.getLsbD 5 = false) (hu : u &&& ~~~0x0018#16 = 0#16) :
    decode (w ^^^ u) = decode w := by
  have h' := (fieldOpcode_xor_of_unused hu rfl).trans h
  have h5' := (getLsbD_xor_of_unused hu rfl).trans h5
  rw [decode_andReg h h5, decode_andReg h' h5', fieldR9_xor_of_unused hu rfl, fieldR6_xor_of_unused hu rfl,
    fieldR0_xor_of_unused hu rfl]

theorem decode_xor_of_not (h : fieldOpcode w = 0x9#4) (hu : u &&& ~~~0x003F#16 = 0#16) :
    decode (w ^^^ u) = decode w := by
  have h' := (fieldOpcode_xor_of_unused hu rfl).trans h
  rw [decode_not h, decode_not h', fieldR9_xor_of_unused hu rfl, fieldR6_xor_of_unused hu rfl]

theorem decode_xor_of_jmp (h : fieldOpcode w = 0xC#4) (hu : u &&& ~~~0x0E3F#16 = 0#16) :
    decode (w ^^^ u) = decode w := by
  have h' := (fieldOpcode_xor_of_unused hu rfl).trans h
  rw [decode_jmp h, decode_jmp h', fieldR6_xor_of_unused hu rfl]

theorem decode_xor_of_jsrr (h : fieldOpcode w = 0x4#4) (h11 : w.getLsbD 11 = false) (hu : u &&& ~~~0x063F#16 = 0#16) :
    decode (w ^^^ u) = decode w := by
  have h' := (fieldOpcode_xor_of_unused hu rfl).trans h
  have h11' := (getLsbD_xor_of_unused hu rfl).trans h11
  rw [decode_jsrr h h11, decode_jsrr h' h11', fieldR6_xor_of_unused hu rfl]

theorem decode_xor_of_trap (h : fieldOpcode w = 0xF#4) (hu : u &&& ~~~0x0F00#16 = 0#16) :
    decode (w ^^^ u) = decode w := by
  have h' := (fieldOpcode_xor_of_unused hu rfl).trans h
  rw [decode_trap h, decode_trap h', fieldVect8_xor_of_unused hu rfl]

theorem decode_xor_of_res (h : fieldOpcode w = 0xD#4) (hu : u &&& ~~~0x0FFF#16 = 0#16) :
    decode (w ^^^ u) = decode w :=
  (decode_res ((fieldOpcode_xor_of_unused hu rfl).trans h)).trans (decode_res h).symm

theorem decode_xor_of_rti (h : fieldOpcode w = 0x8#4) (hu : u &&& ~~~0x0FFF#16 = 0#16) :
    decode (w ^^^ u) = decode w :=
  (decode_rti ((fieldOpcode_xor_of_unused hu rfl).trans h)).trans (decode_rti h).symm

end

/-- Settles O3, format by format. -/
theorem unusedOperandBitsAreIgnored : Obligations.UnusedOperandBitsAreIgnored := by
  unfold Obligations.UnusedOperandBitsAreIgnored
  exact fun w u => ⟨fun h h5 hu => h.elim (decode_xor_of_addReg · h5 hu) (decode_xor_of_andReg · h5 hu),
    decode_xor_of_not, decode_xor_of_jmp, decode_xor_of_jsrr, decode_xor_of_trap,
    fun h hu => h.elim (decode_xor_of_res · hu) (decode_xor_of_rti · hu)⟩

end Sys2Proof.Proofs
end

section
/-!
PROOFS. The common primitives (40_execution_cycle.md): sign extension (R145, R146), bit by bit and by value, and `setcc` (R147, R148),
an update of COND alone.
-/

namespace Sys2Proof.Proofs

open Sys2Proof.Machine Sys2Proof.Safety Sys2Proof.Laws

/-! ## Sign extension -/

section
variable {n : Nat} {v : BitVec n}

/-- The bits of a sign-extended field: its own below n, copies of its sign bit from n on. -/
theorem getElem_sext (v : BitVec n) {k : Nat} (hk : k < 16) :
    (sext v)[k] = if k < n then v.getLsbD k else v.getLsbD (n - 1) := by
  rw [sext, BitVec.getElem_signExtend, BitVec.msb_eq_getLsbD_last]
  split
  · rw [BitVec.getLsbD_eq_getElem]
  · rfl

theorem sext_eq_setWidth (h : v.getLsbD (n - 1) = false) : sext v = v.setWidth 16 :=
  BitVec.signExtend_eq_setWidth_of_msb_false ((BitVec.msb_eq_getLsbD_last v).trans h)

/-- R145's case of a set sign bit: 0xFFFF shifted left by n fills the bits from n on with ones. -/
theorem sext_eq_fill (h : v.getLsbD (n - 1) = true) :
    sext v = (v.setWidth 16 ||| (0xFFFF#16 <<< n)) &&& 0xFFFF#16 := by
  have ones : 0xFFFF#16 = BitVec.allOnes 16 := rfl
  rw [ones, BitVec.and_allOnes]
  ext k hk
  rw [getElem_sext, h, BitVec.getElem_or, BitVec.getElem_setWidth, BitVec.getElem_shiftLeft, BitVec.getElem_allOnes]
  by_cases hkn : k < n
  · simp [hkn]
  · simp [hkn]

/-- The low n bits of a sign-extended field are the field: the fact behind R146's idempotence. -/
theorem setWidth_sext (hn : n ≤ 16) (v : BitVec n) : (sext v).setWidth n = v := by
  ext k hk
  have hk16 : k < 16 := by omega
  rw [BitVec.getElem_setWidth, BitVec.getLsbD_eq_getElem hk16, getElem_sext, if_pos hk, BitVec.getLsbD_eq_getElem]

theorem toNat_sext (hn : n ≤ 16) (h : v.getLsbD (n - 1) = false) : (sext v).toNat = v.toNat := by
  rw [sext_eq_setWidth h, BitVec.toNat_setWidth_of_le hn]

end

/-- Settles O6: the pseudocode by its two cases, idempotence from `setWidth_sext`. -/
theorem signExtensionLaws : Obligations.SignExtensionLaws := by
  unfold Obligations.SignExtensionLaws
  intro n v _ hn
  refine ⟨?_, congrArg sext (setWidth_sext hn v), toNat_sext hn⟩
  split
  next hset => exact sext_eq_fill hset
  next hclear => exact sext_eq_setWidth (Bool.eq_false_of_not_eq_true hclear)

/-! ## The frame of an update of COND -/

theorem sameRegsBut_setCond (ds : List Reg) (s : State) (c : Word) : SameRegsBut ds s (s.setCond c) :=
  fun r _ => reg_setCond s c r

theorem sameMem_setCond (s : State) (c : Word) : SameMem s (s.setCond c) :=
  rawRead_setCond s c

theorem samePorts_setCond (s : State) (c : Word) : SamePorts s (s.setCond c) :=
  ⟨setCond_events s c, setCond_env s c⟩

theorem sameControl_setCond (s : State) (c : Word) : SameControl s (s.setCond c) :=
  ⟨setCond_run s c, setCond_cancelPending s c, setCond_ir s c, setCond_params s c⟩

theorem sameRest_setCond (s : State) (c : Word) : SameRest s (s.setCond c) :=
  ⟨sameControl_setCond s c, setCond_activity s c⟩

/-! ## setcc -/

theorem setcc_eq (s : State) (r : Reg) : s.setcc r = s.setCond (condOf (s.reg r)) := rfl

theorem condLegal_condOf (v : Word) : CondLegal (condOf v) := condOf_cases v

/-- Settles O7: `setcc` is an update of COND by `condOf`, whose value `flagsOf_condOf` classifies. -/
theorem setccClassifiesTheRegister : Obligations.SetccClassifiesTheRegister := by
  unfold Obligations.SetccClassifiesTheRegister
  intro s r
  rw [setcc_eq, setCond_cond]
  exact ⟨flagsOf_condOf _, condLegal_condOf _, sameRegsBut_setCond [] s _, setCond_pc s _, sameMem_setCond s _,
    samePorts_setCond s _, sameRest_setCond s _⟩

end Sys2Proof.Proofs
end

section
/-!
PROOFS. The operate instructions (41_operate.md R170 to R174). Each of them is one `writeDest`: first the condition code and the frame
of that operation, then each instruction's equation, from which the statements about ADD, AND and NOT follow by what one bit vector
operation gives.
-/

namespace Sys2Proof.Proofs

open Sys2Proof.Machine Sys2Proof.Safety Sys2Proof.Laws

/-! ## The frame of writeDest -/

theorem sameRegsBut_writeDest (s : State) (r : Reg) (v : Word) : SameRegsBut [r] s (s.writeDest r v) := by
  intro q hq
  rw [reg_writeDest, if_neg (List.ne_of_not_mem_cons hq)]

theorem sameMem_writeDest (s : State) (r : Reg) (v : Word) : SameMem s (s.writeDest r v) :=
  rawRead_writeDest s r v

theorem samePorts_writeDest (s : State) (r : Reg) (v : Word) : SamePorts s (s.writeDest r v) :=
  ⟨writeDest_events s r v, writeDest_env s r v⟩

theorem sameControl_writeDest (s : State) (r : Reg) (v : Word) : SameControl s (s.writeDest r v) :=
  ⟨writeDest_run s r v, writeDest_cancelPending s r v, writeDest_ir s r v, writeDest_params s r v⟩

theorem sameRest_writeDest (s : State) (r : Reg) (v : Word) : SameRest s (s.writeDest r v) :=
  ⟨sameControl_writeDest s r v, writeDest_activity s r v⟩

/-- All that an instruction ending in `writeDest` on its own state does besides the value of DR: COND is DR's code, and no other part
of the state changes. -/
theorem writeDest_flags_and_frame (s : State) (r : Reg) (v : Word) :
    FlagsOf ((s.writeDest r v).reg r) (s.writeDest r v).cond ∧ SameRegsBut [r] s (s.writeDest r v) ∧
      (s.writeDest r v).pc = s.pc ∧ SameMem s (s.writeDest r v) ∧ SamePorts s (s.writeDest r v) ∧
      SameRest s (s.writeDest r v) :=
  ⟨flagsOf_writeDest s r v, sameRegsBut_writeDest s r v, writeDest_pc s r v, sameMem_writeDest s r v,
    samePorts_writeDest s r v, sameRest_writeDest s r v⟩

/-! ## The instructions' equations -/

theorem exec_addReg (dr sr1 sr2 : Reg) (s : State) :
    exec (.addReg dr sr1 sr2) s = .next (s.writeDest dr (s.reg sr1 + s.reg sr2)) := rfl

theorem exec_addImm (dr sr1 : Reg) (imm5 : BitVec 5) (s : State) :
    exec (.addImm dr sr1 imm5) s = .next (s.writeDest dr (s.reg sr1 + sext imm5)) := rfl

theorem exec_andReg (dr sr1 sr2 : Reg) (s : State) :
    exec (.andReg dr sr1 sr2) s = .next (s.writeDest dr (s.reg sr1 &&& s.reg sr2)) := rfl

theorem exec_andImm (dr sr1 : Reg) (imm5 : BitVec 5) (s : State) :
    exec (.andImm dr sr1 imm5) s = .next (s.writeDest dr (s.reg sr1 &&& sext imm5)) := rfl

theorem exec_not (dr sr : Reg) (s : State) : exec (.not dr sr) s = .next (s.writeDest dr (~~~(s.reg sr))) := rfl

/-! ## The two forms agree (R174) -/

section
variable {sr2 : Reg} {imm5 : BitVec 5} {s : State}

theorem exec_addReg_eq_addImm (h : s.reg sr2 = sext imm5) (dr sr1 : Reg) :
    exec (.addReg dr sr1 sr2) s = exec (.addImm dr sr1 imm5) s := by
  rw [exec_addReg, exec_addImm, h]

theorem exec_andReg_eq_andImm (h : s.reg sr2 = sext imm5) (dr sr1 : Reg) :
    exec (.andReg dr sr1 sr2) s = exec (.andImm dr sr1 imm5) s := by
  rw [exec_andReg, exec_andImm, h]

end

/-- Settles O37: each register form, with SR2 holding the immediate, is its immediate form, which completes. -/
theorem immediateAndRegisterFormsAgree : Obligations.ImmediateAndRegisterFormsAgree := by
  unfold Obligations.ImmediateAndRegisterFormsAgree
  intro dr sr1 sr2 imm5 s h
  rw [exec_addReg_eq_addImm h, exec_andReg_eq_andImm h]
  have hadd := exec_addImm dr sr1 imm5 s
  have hand := exec_andImm dr sr1 imm5 s
  exact ⟨_, _, hadd, hadd, hand, hand⟩

/-! ## ADD, AND, NOT -/

/-- Settles O34: both forms write a sum of words, whose value `BitVec.toNat_add` gives. -/
theorem addAddsModulo65536 : Obligations.AddAddsModulo65536 := by
  unfold Obligations.AddAddsModulo65536
  refine ⟨fun ir => decode_add, fun dr sr1 sr2 s => ?_, fun dr sr1 imm5 s => ?_⟩
  · refine ⟨_, exec_addReg dr sr1 sr2 s, ?_, writeDest_flags_and_frame s dr _⟩
    rw [reg_writeDest_self, BitVec.toNat_add]
  · refine ⟨_, exec_addImm dr sr1 imm5 s, ?_, writeDest_flags_and_frame s dr _⟩
    rw [reg_writeDest_self, BitVec.toNat_add]

/-- Settles O35: both forms write a bitwise conjunction, read bit by bit by `BitVec.getLsbD_and`. -/
theorem andIsBitwise : Obligations.AndIsBitwise := by
  unfold Obligations.AndIsBitwise
  refine ⟨fun ir => decode_and, fun dr sr1 sr2 s => ?_, fun dr sr1 imm5 s => ?_⟩
  · refine ⟨_, exec_andReg dr sr1 sr2 s, fun k => ?_, writeDest_flags_and_frame s dr _⟩
    rw [reg_writeDest_self, BitVec.getLsbD_and]
  · refine ⟨_, exec_andImm dr sr1 imm5 s, fun k => ?_, writeDest_flags_and_frame s dr _⟩
    rw [reg_writeDest_self, BitVec.getLsbD_and]

/-- Settles O36: NOT writes the complement; of its bits `BitVec.getLsbD_not` speaks below 16 only, as the statement does. -/
theorem notComplements : Obligations.NotComplements := by
  unfold Obligations.NotComplements
  refine ⟨fun ir => decode_not, fun dr sr s => ?_⟩
  refine ⟨_, exec_not dr sr s, fun k hk => ?_, writeDest_flags_and_frame s dr _⟩
  rw [reg_writeDest_self, BitVec.getLsbD_not, decide_eq_true hk, Bool.true_and]

end Sys2Proof.Proofs
end

section
/-!
PROOFS. One MemRead (20_memory.md R72, R80): what the poll of a KBSR read gives, and the effect and frame of `afterRead`. These are the
facts about reading that the loads rest on.
-/

namespace Sys2Proof.Proofs

open Sys2Proof.Machine Sys2Proof.Safety Sys2Proof.Laws

theorem memRead_eq (s : State) (a : Word) : s.memRead a = (s.afterRead a).rawRead a := rfl

/-! ## The poll -/

theorem kbdr_ne_kbsr : KBDR ≠ KBSR := by decide

theorem pollKeyboard_of_key {s : State} {c : Byte} (h : s.kbdAnswer = some c) :
    s.pollKeyboard =
      (((s.setEnv s.kbdTaken).addEvents [.kbdPoll true, .kbdConsume c]).memWrite KBSR 0x8000#16).memWrite KBDR (zext8 c) := by
  rw [State.pollKeyboard, h]

theorem pollKeyboard_of_no_key {s : State} (h : s.kbdAnswer = none) :
    s.pollKeyboard = ((s.setEnv s.kbdTaken).addEvents [.kbdPoll false]).memWrite KBSR 0x0000#16 := by
  rw [State.pollKeyboard, h]

/-- What a MemRead of KBSR gives: the ready bit with a key, zero without, whatever the cell held (R72). -/
theorem memRead_kbsr (s : State) : s.memRead KBSR = if s.kbdAnswer.isSome then 0x8000#16 else 0x0000#16 := by
  rw [memRead_eq, afterRead_kbsr]
  cases h : s.kbdAnswer with
  | some c =>
    rw [pollKeyboard_of_key h, rawRead_memWrite_of_ne kbdr_ne_kbsr.symm, rawRead_memWrite_self, Option.isSome_some,
      if_pos rfl]
  | none =>
    rw [pollKeyboard_of_no_key h, rawRead_memWrite_self]
    rfl

theorem pollEffect_pollKeyboard (s : State) : PollEffect s s.pollKeyboard := by
  unfold PollEffect
  cases h : s.kbdAnswer with
  | some c =>
    rw [pollKeyboard_of_key h]
    refine ⟨?_, rawRead_memWrite_self _ KBDR _, fun a hs hd => ?_, rfl, rfl⟩
    · rw [rawRead_memWrite_of_ne kbdr_ne_kbsr.symm, rawRead_memWrite_self]
    · rw [rawRead_memWrite_of_ne hd, rawRead_memWrite_of_ne hs, rawRead_addEvents, rawRead_setEnv]
  | none =>
    rw [pollKeyboard_of_no_key h]
    exact ⟨rawRead_memWrite_self _ KBSR _, fun a hs => rawRead_memWrite_of_ne hs _ _, rfl, rfl⟩

/-! ## The effect and the frame of MemRead -/

theorem readEffect_afterRead (s : State) (a : Word) : ReadEffect a s (s.afterRead a) := by
  unfold ReadEffect
  split
  next h =>
    rw [h, afterRead_kbsr]
    exact pollEffect_pollKeyboard s
  next h =>
    rw [afterRead_of_ne h]
    exact ⟨fun _ => rfl, rfl, rfl⟩

/-- The effect of a read speaks of memory and ports only, so it stays when what follows leaves these as they are. -/
theorem readEffect_of_sameMem_of_samePorts {a : Word} {s t u : State} (h : ReadEffect a s t) (hm : SameMem t u)
    (hp : SamePorts t u) : ReadEffect a s u := by
  obtain ⟨hevents, henv⟩ := hp
  unfold SameMem at hm
  simpa only [ReadEffect, PollEffect, SameMem, SamePorts, hm, hevents, henv] using h

theorem sameRegsBut_afterRead (ds : List Reg) (s : State) (a : Word) : SameRegsBut ds s (s.afterRead a) :=
  fun r _ => reg_afterRead s a r

theorem sameControl_afterRead (s : State) (a : Word) : SameControl s (s.afterRead a) :=
  ⟨afterRead_run s a, afterRead_cancelPending s a, afterRead_ir s a, afterRead_params s a⟩

theorem sameRest_afterRead (s : State) (a : Word) : SameRest s (s.afterRead a) :=
  ⟨sameControl_afterRead s a, afterRead_activity s a⟩

/-! ## Frames compose -/

section
variable {s t u : State}

theorem sameRegsBut_trans {ds : List Reg} (h : SameRegsBut ds s t) (h' : SameRegsBut ds t u) : SameRegsBut ds s u :=
  fun r hr => (h' r hr).trans (h r hr)

theorem sameControl_trans (h : SameControl s t) (h' : SameControl t u) : SameControl s u := by
  obtain ⟨hrun, hcancel, hir, hparams⟩ := h
  obtain ⟨hrun', hcancel', hir', hparams'⟩ := h'
  exact ⟨hrun'.trans hrun, hcancel'.trans hcancel, hir'.trans hir, hparams'.trans hparams⟩

theorem sameRest_trans (h : SameRest s t) (h' : SameRest t u) : SameRest s u := by
  obtain ⟨hcontrol, hactivity⟩ := h
  obtain ⟨hcontrol', hactivity'⟩ := h'
  exact ⟨sameControl_trans hcontrol hcontrol', hactivity'.trans hactivity⟩

end

end Sys2Proof.Proofs
end

section
/-!
PROOFS. The loads and LEA (42_loads.md R180 to R184). Every load ends in `loadFrom`: first its value, effect and frame, then each
instruction's equation. That LDI is two chained loads rests on one fact: a write to DR and COND is lost in a load into DR, because
reading sees neither and the load writes both.
-/

namespace Sys2Proof.Proofs

open Sys2Proof.Machine Sys2Proof.Safety Sys2Proof.Laws

/-! ## What loadFrom does -/

theorem loadFrom_eq (s : State) (dr : Reg) (ea : Word) : s.loadFrom dr ea = (s.afterRead ea).writeDest dr (s.memRead ea) := rfl

@[simp] theorem reg_loadFrom_self (s : State) (dr : Reg) (ea : Word) : (s.loadFrom dr ea).reg dr = s.memRead ea :=
  reg_writeDest_self _ dr _

@[simp] theorem loadFrom_cond (s : State) (dr : Reg) (ea : Word) : (s.loadFrom dr ea).cond = condOf (s.memRead ea) :=
  writeDest_cond _ dr _

/-- The loaded cell still holds the loaded word after the load: the poll, if there is one, comes before the read. -/
theorem reg_loadFrom_eq_rawRead (s : State) (dr : Reg) (ea : Word) :
    (s.loadFrom dr ea).reg dr = (s.loadFrom dr ea).rawRead ea := by
  rw [reg_loadFrom_self, loadFrom_eq, rawRead_writeDest, memRead_eq]

theorem flagsOf_loadFrom (s : State) (dr : Reg) (ea : Word) :
    FlagsOf ((s.loadFrom dr ea).reg dr) (s.loadFrom dr ea).cond :=
  flagsOf_writeDest _ dr _

theorem readEffect_loadFrom (s : State) (dr : Reg) (ea : Word) : ReadEffect ea s (s.loadFrom dr ea) :=
  readEffect_of_sameMem_of_samePorts (readEffect_afterRead s ea) (sameMem_writeDest _ dr _) (samePorts_writeDest _ dr _)

theorem sameRegsBut_loadFrom (s : State) (dr : Reg) (ea : Word) : SameRegsBut [dr] s (s.loadFrom dr ea) :=
  sameRegsBut_trans (sameRegsBut_afterRead [dr] s ea) (sameRegsBut_writeDest _ dr _)

@[simp] theorem loadFrom_pc (s : State) (dr : Reg) (ea : Word) : (s.loadFrom dr ea).pc = s.pc := by
  rw [loadFrom_eq, writeDest_pc, afterRead_pc]

theorem sameRest_loadFrom (s : State) (dr : Reg) (ea : Word) : SameRest s (s.loadFrom dr ea) :=
  sameRest_trans (sameRest_afterRead s ea) (sameRest_writeDest _ dr _)

/-- A load from KBSR gives the keyboard's readiness as a word, with the code of its sign (R72, R180). -/
theorem loadFrom_kbsr (s : State) (dr : Reg) :
    (s.kbdAnswer.isSome = true → (s.loadFrom dr KBSR).reg dr = 0x8000#16 ∧ (s.loadFrom dr KBSR).cond = NEG) ∧
    (s.kbdAnswer = none → (s.loadFrom dr KBSR).reg dr = 0x0000#16 ∧ (s.loadFrom dr KBSR).cond = ZRO) := by
  rw [reg_loadFrom_self, loadFrom_cond, memRead_kbsr]
  refine ⟨fun key => ?_, fun noKey => ?_⟩
  · rw [if_pos key]
    exact ⟨rfl, by decide⟩
  · rw [noKey]
    exact ⟨rfl, by decide⟩

/-! ## The instructions' equations -/

theorem exec_ld (dr : Reg) (off9 : BitVec 9) (s : State) :
    exec (.ld dr off9) s = .next (s.loadFrom dr (s.pc + sext off9)) := rfl

theorem exec_ldi (dr : Reg) (off9 : BitVec 9) (s : State) :
    exec (.ldi dr off9) s = .next ((s.afterRead (s.pc + sext off9)).loadFrom dr (s.memRead (s.pc + sext off9))) := rfl

theorem exec_ldr (dr base : Reg) (off6 : BitVec 6) (s : State) :
    exec (.ldr dr base off6) s = .next (s.loadFrom dr (s.reg base + sext off6)) := rfl

theorem exec_lea (dr : Reg) (off9 : BitVec 9) (s : State) :
    exec (.lea dr off9) s = .next (s.writeDest dr (s.pc + sext off9)) := rfl

/-! ## A write to DR before a load into DR is lost -/

@[simp] theorem kbdAnswer_writeDest (s : State) (r : Reg) (v : Word) : (s.writeDest r v).kbdAnswer = s.kbdAnswer := rfl

@[simp] theorem writeDest_writeDest (s : State) (r : Reg) (v w : Word) : (s.writeDest r v).writeDest r w = s.writeDest r w := by
  simp only [writeDest_eq, setCond_regs, setRegs_regs, regs_set_set]
  rfl

/-- The poll sees no register and not COND. -/
theorem pollKeyboard_writeDest (s : State) (r : Reg) (v : Word) :
    (s.writeDest r v).pollKeyboard = s.pollKeyboard.writeDest r v := by
  cases h : s.kbdAnswer with
  | some c =>
    rw [pollKeyboard_of_key h, pollKeyboard_of_key ((kbdAnswer_writeDest s r v).trans h)]
    rfl
  | none =>
    rw [pollKeyboard_of_no_key h, pollKeyboard_of_no_key ((kbdAnswer_writeDest s r v).trans h)]
    rfl

theorem afterRead_writeDest (s : State) (r : Reg) (v a : Word) :
    (s.writeDest r v).afterRead a = (s.afterRead a).writeDest r v := by
  by_cases h : a = KBSR
  · rw [h, afterRead_kbsr, afterRead_kbsr, pollKeyboard_writeDest]
  · rw [afterRead_of_ne h, afterRead_of_ne h]

theorem memRead_writeDest (s : State) (r : Reg) (v a : Word) : (s.writeDest r v).memRead a = s.memRead a := by
  rw [memRead_eq, afterRead_writeDest, rawRead_writeDest, memRead_eq]

theorem loadFrom_writeDest (s : State) (r : Reg) (v ea : Word) : (s.writeDest r v).loadFrom r ea = s.loadFrom r ea := by
  rw [loadFrom_eq, afterRead_writeDest, memRead_writeDest, writeDest_writeDest, loadFrom_eq]

/-- LDR of DR through DR with offset 0 is a load from the address in DR: the second link of R184's chain. -/
theorem exec_ldr_own_base_zero (dr : Reg) (s : State) : exec (.ldr dr dr 0#6) s = .next (s.loadFrom dr (s.reg dr)) := by
  have sext_zero : sext 0#6 = 0#16 := by decide
  rw [exec_ldr, sext_zero, BitVec.add_zero]

/-- Settles O42: the LD leaves the pointer in DR, and the load through DR then loses that write (`loadFrom_writeDest`). -/
theorem ldiIsTwoChainedLoads : Obligations.LdiIsTwoChainedLoads := by
  unfold Obligations.LdiIsTwoChainedLoads
  intro dr off9 s
  refine ⟨_, exec_ld dr off9 s, ?_⟩
  rw [exec_ldi, exec_ldr_own_base_zero, reg_loadFrom_self, loadFrom_eq s, loadFrom_writeDest]

/-! ## LD, LDI, LDR, LEA -/

/-- Settles O38: LD is one `loadFrom` at PC' + offset; at KBSR by `loadFrom_kbsr`. -/
theorem ldLoadsPcRelative : Obligations.LdLoadsPcRelative := by
  unfold Obligations.LdLoadsPcRelative
  refine ⟨fun ir => decode_ld, fun dr off9 s => ?_⟩
  refine ⟨_, exec_ld dr off9 s, reg_loadFrom_eq_rawRead s dr _, flagsOf_loadFrom s dr _, readEffect_loadFrom s dr _,
    fun hkbsr => ?_, sameRegsBut_loadFrom s dr _, loadFrom_pc s dr _, sameRest_loadFrom s dr _⟩
  rw [hkbsr]
  exact loadFrom_kbsr s dr

/-- Settles O39: LDI is a MemRead of the pointer, then a `loadFrom` in the state after it, and their frames compose. -/
theorem ldiLoadsThroughThePointer : Obligations.LdiLoadsThroughThePointer := by
  unfold Obligations.LdiLoadsThroughThePointer
  refine ⟨fun ir => decode_ldi, fun dr off9 s => ⟨readEffect_afterRead s _, memRead_eq s _, ?_⟩⟩
  refine ⟨_, exec_ldi dr off9 s, reg_loadFrom_eq_rawRead _ dr _, flagsOf_loadFrom _ dr _, readEffect_loadFrom _ dr _,
    sameRegsBut_trans (sameRegsBut_afterRead [dr] s _) (sameRegsBut_loadFrom _ dr _), ?_,
    sameRest_trans (sameRest_afterRead s _) (sameRest_loadFrom _ dr _)⟩
  rw [loadFrom_pc, afterRead_pc]

/-- Settles O40: LDR is one `loadFrom` at BaseR + offset, an address taken in the state before the load. -/
theorem ldrLoadsBasePlusOffset : Obligations.LdrLoadsBasePlusOffset := by
  unfold Obligations.LdrLoadsBasePlusOffset
  refine ⟨fun ir => decode_ldr, fun dr base off6 s => ?_⟩
  exact ⟨_, exec_ldr dr base off6 s, reg_loadFrom_eq_rawRead s dr _, flagsOf_loadFrom s dr _, readEffect_loadFrom s dr _,
    sameRegsBut_loadFrom s dr _, loadFrom_pc s dr _, sameRest_loadFrom s dr _⟩

/-- Settles O41: LEA is one `writeDest` of the address and no read; the address is a sum of words. -/
theorem leaComputesTheAddress : Obligations.LeaComputesTheAddress := by
  unfold Obligations.LeaComputesTheAddress
  refine ⟨fun ir => decode_lea, fun dr off9 s => ?_⟩
  refine ⟨_, exec_lea dr off9 s, ?_, writeDest_flags_and_frame s dr _⟩
  rw [reg_writeDest_self, BitVec.toNat_add]

end Sys2Proof.Proofs
end

section
/-!
PROOFS. The stores (43_stores.md R190 to R192). Every store ends in one MemWrite, whose effect and frame `memWriteStoresEverywhere`
states; STI does one MemRead before it, and the frames of the two compose.
-/

namespace Sys2Proof.Proofs

open Sys2Proof.Machine Sys2Proof.Safety Sys2Proof.Laws

/-! ## The instructions' equations -/

theorem exec_st (sr : Reg) (off9 : BitVec 9) (s : State) :
    exec (.st sr off9) s = .next (s.memWrite (s.pcRel off9) (s.reg sr)) := rfl

theorem exec_sti (sr : Reg) (off9 : BitVec 9) (s : State) :
    exec (.sti sr off9) s =
      .next ((s.afterRead (s.pc + sext off9)).memWrite (s.memRead (s.pc + sext off9)) (s.reg sr)) := rfl

theorem exec_str (sr base : Reg) (off6 : BitVec 6) (s : State) :
    exec (.str sr base off6) s = .next (s.memWrite (s.baseRel base off6) (s.reg sr)) := rfl

/-! ## ST, STI, STR -/

/-- Settles O43: ST is one MemWrite at PC' + offset. -/
theorem stStoresPcRelative : Obligations.StStoresPcRelative := by
  unfold Obligations.StStoresPcRelative
  refine ⟨fun ir => decode_st, fun sr off9 s => ?_⟩
  obtain ⟨hcell, hother, hframe⟩ := memWriteStoresEverywhere s (s.pcRel off9) (s.reg sr)
  exact ⟨_, exec_st sr off9 s, hcell, hother, rfl, hframe⟩

/-- Settles O44: STI is a MemRead of the pointer, then a MemWrite in the state after it. The MemWrite leaves the ports as the read
left them; on registers, PC, COND and control state the two frames compose. -/
theorem stiStoresThroughThePointer : Obligations.StiStoresThroughThePointer := by
  unfold Obligations.StiStoresThroughThePointer
  refine ⟨fun ir => decode_sti, fun sr off9 s => ⟨readEffect_afterRead s _, memRead_eq s _, ?_⟩⟩
  obtain ⟨hcell, hother, hregs, hpc, hcond, hports, hrest⟩ :=
    memWriteStoresEverywhere (s.afterRead (s.pc + sext off9)) (s.memRead (s.pc + sext off9)) (s.reg sr)
  exact ⟨_, exec_sti sr off9 s, hcell, hother, hports, sameRegsBut_trans (sameRegsBut_afterRead [] s _) hregs,
    hpc.trans (afterRead_pc s _), hcond.trans (afterRead_cond s _), sameRest_trans (sameRest_afterRead s _) hrest⟩

/-- Settles O45: STR is one MemWrite at BaseR + offset. -/
theorem strStoresBasePlusOffset : Obligations.StrStoresBasePlusOffset := by
  unfold Obligations.StrStoresBasePlusOffset
  refine ⟨fun ir => decode_str, fun sr base off6 s => ?_⟩
  obtain ⟨hcell, hother, hframe⟩ := memWriteStoresEverywhere s (s.baseRel base off6) (s.reg sr)
  exact ⟨_, exec_str sr base off6 s, hcell, hother, rfl, hframe⟩

end Sys2Proof.Proofs
end

section
/-!
PROOFS. What control transfer is made of: the update of PC (10_state.md R44) and the link (44_control.md R203, R204, 45_trap.md R210), one
frame lemma for each part of the state, and the step of a core at a boundary (40_execution_cycle.md R141).
-/

namespace Sys2Proof.Proofs

open Sys2Proof.Machine Sys2Proof.Safety Sys2Proof.Laws

/-! ## Frames of memory and ports compose -/

section
variable {s t u : State}

theorem sameMem_trans (h : SameMem s t) (h' : SameMem t u) : SameMem s u :=
  fun a => (h' a).trans (h a)

theorem samePorts_trans (h : SamePorts s t) (h' : SamePorts t u) : SamePorts s u := by
  obtain ⟨hevents, henv⟩ := h
  obtain ⟨hevents', henv'⟩ := h'
  exact ⟨hevents'.trans hevents, henv'.trans henv⟩

end

/-! ## The frame of an update of PC -/

theorem sameRegsBut_setPc (ds : List Reg) (s : State) (v : Word) : SameRegsBut ds s (s.setPc v) :=
  fun r _ => reg_setPc s v r

theorem sameMem_setPc (s : State) (v : Word) : SameMem s (s.setPc v) :=
  rawRead_setPc s v

theorem samePorts_setPc (s : State) (v : Word) : SamePorts s (s.setPc v) :=
  ⟨setPc_events s v, setPc_env s v⟩

theorem sameControl_setPc (s : State) (v : Word) : SameControl s (s.setPc v) :=
  ⟨setPc_run s v, setPc_cancelPending s v, setPc_ir s v, setPc_params s v⟩

theorem sameRest_setPc (s : State) (v : Word) : SameRest s (s.setPc v) :=
  ⟨sameControl_setPc s v, setPc_activity s v⟩

/-- All that a jump does besides the value of PC: nothing. -/
theorem setPc_frame (s : State) (v : Word) :
    SameRegsBut [] s (s.setPc v) ∧ (s.setPc v).cond = s.cond ∧ SameMem s (s.setPc v) ∧ SamePorts s (s.setPc v) ∧
      SameRest s (s.setPc v) :=
  ⟨sameRegsBut_setPc [] s v, setPc_cond s v, sameMem_setPc s v, samePorts_setPc s v, sameRest_setPc s v⟩

theorem setPc_pc_self (s : State) : s.setPc s.pc = s := rfl

/-! ## The frame of the link -/

@[simp] theorem reg_r7_link (s : State) : s.link.reg .r7 = s.pc := by
  rw [reg_link, if_pos rfl]

theorem sameRegsBut_link (s : State) : SameRegsBut [.r7] s s.link := by
  intro r hr
  rw [reg_link, if_neg (List.ne_of_not_mem_cons hr)]

theorem sameMem_link (s : State) : SameMem s s.link :=
  rawRead_link s

theorem samePorts_link (s : State) : SamePorts s s.link :=
  ⟨link_events s, link_env s⟩

theorem sameControl_link (s : State) : SameControl s s.link :=
  ⟨link_run s, link_cancelPending s, link_ir s, link_params s⟩

theorem sameRest_link (s : State) : SameRest s s.link :=
  ⟨sameControl_link s, link_activity s⟩

/-- All that a call does besides its target, which PC takes after the link: the two frames compose. -/
theorem link_setPc_frame (s : State) (v : Word) :
    SameRegsBut [.r7] s (s.link.setPc v) ∧ (s.link.setPc v).cond = s.cond ∧ SameMem s (s.link.setPc v) ∧
      SamePorts s (s.link.setPc v) ∧ SameRest s (s.link.setPc v) :=
  ⟨sameRegsBut_trans (sameRegsBut_link s) (sameRegsBut_setPc [.r7] _ v), (setPc_cond _ v).trans (link_cond s),
    sameMem_trans (sameMem_link s) (sameMem_setPc _ v), samePorts_trans (samePorts_link s) (samePorts_setPc _ v),
    sameRest_trans (sameRest_link s) (sameRest_setPc _ v)⟩

/-! ## The step at a boundary -/

/-- At a boundary with no cancellation pending a step runs the decoded instruction in the state after the fetch (R141). -/
theorem step_of_atBoundary {s : State} (h : AtBoundary s) : step s = afterTransition (exec (decode s.fetch.ir) s.fetch) := by
  obtain ⟨hrun, hidle, hcancel⟩ := h
  simp [step, hrun, hidle, hcancel, runInstruction]

/-- The step of an instruction that completes: its next state, with the arrival of a cancellation taken in. -/
theorem step_of_exec {s t : State} (h : AtBoundary s) (e : exec (decode s.fetch.ir) s.fetch = .next t) :
    step s = .next t.cancelArrives := by
  rw [step_of_atBoundary h, e, afterTransition_next]

end Sys2Proof.Proofs
end

section
/-!
PROOFS. Control transfer (44_control.md R200 to R203, R206). A branch or jump is one `setPc`, a call a `link` and then a `setPc`: each
instruction's equation says so, and the values and frames of those operations give the statements.
-/

namespace Sys2Proof.Proofs

open Sys2Proof.Machine Sys2Proof.Safety Sys2Proof.Laws

/-! ## The instructions' equations -/

/-- BR updates PC in any case: a branch not taken leaves it at PC'. -/
theorem exec_br (n z p : Bool) (off9 : BitVec 9) (s : State) :
    exec (.br n z p off9) s = .next (s.setPc (if branchTaken n z p s.cond then s.pc + sext off9 else s.pc)) := by
  have e : exec (.br n z p off9) s = .next (if branchTaken n z p s.cond then s.setPc (s.pcRel off9) else s) := rfl
  rw [e, apply_ite s.setPc, setPc_pc_self, State.pcRel]

theorem exec_jmp (base : Reg) (s : State) : exec (.jmp base) s = .next (s.setPc (s.reg base)) := rfl

theorem exec_ret (s : State) : exec .ret s = .next (s.setPc (s.reg .r7)) := rfl

theorem exec_jsr (off11 : BitVec 11) (s : State) :
    exec (.jsr off11) s = .next (s.link.setPc (s.pc + sext off11)) := rfl

/-- JSRR reads its base after the link (R204). -/
theorem exec_jsrr (base : Reg) (s : State) : exec (.jsrr base) s = .next (s.link.setPc (s.link.reg base)) := rfl

/-! ## The branch test -/

theorem branchTaken_iff {n z p : Bool} {c : Word} :
    branchTaken n z p c = true ↔ (n = true ∧ c = NEG) ∨ (z = true ∧ c = ZRO) ∨ (p = true ∧ c = POS) := by
  simp [branchTaken, or_assoc]

@[simp] theorem branchTaken_pos (n z p : Bool) : branchTaken n z p POS = p := by
  simp [branchTaken, POS, ZRO, NEG]

@[simp] theorem branchTaken_zro (n z p : Bool) : branchTaken n z p ZRO = z := by
  simp [branchTaken, POS, ZRO, NEG]

@[simp] theorem branchTaken_neg (n z p : Bool) : branchTaken n z p NEG = n := by
  simp [branchTaken, POS, ZRO, NEG]

/-- The mask form of the test, for a COND with one bit set: that bit selects one of the three condition bits of the word. -/
theorem conditionBits_and_ne_zero_iff (ir : Word) {c : Word} {k : Nat} (hk : k < 3)
    (hc : c.extractLsb' 0 3 = BitVec.twoPow 3 k) :
    ir.extractLsb' 9 3 &&& c.extractLsb' 0 3 ≠ 0#3 ↔ ir.getLsbD (9 + k) = true := by
  have nonzero : BitVec.twoPow 3 k ≠ 0#3 := by
    intro h
    have hbit := congrArg (BitVec.getLsbD · k) h
    simp [hk] at hbit
  rw [hc, BitVec.and_twoPow, BitVec.getLsbD_extractLsb', decide_eq_true hk, Bool.true_and]
  cases ir.getLsbD (9 + k) <;> simp [nonzero]

/-- For a legal COND the test of BR is the mask form of R200: POS, ZRO and NEG are the bits 0, 1 and 2, which select p, z and n. -/
theorem branchTaken_iff_mask (ir : Word) {c : Word} (h : CondLegal c) :
    branchTaken (ir.getLsbD 11) (ir.getLsbD 10) (ir.getLsbD 9) c = true ↔
      ir.extractLsb' 9 3 &&& c.extractLsb' 0 3 ≠ 0#3 := by
  obtain rfl | rfl | rfl := h
  · rw [branchTaken_pos, conditionBits_and_ne_zero_iff ir (k := 0) (by decide) (by decide)]
  · rw [branchTaken_zro, conditionBits_and_ne_zero_iff ir (k := 1) (by decide) (by decide)]
  · rw [branchTaken_neg, conditionBits_and_ne_zero_iff ir (k := 2) (by decide) (by decide)]

/-! ## Call and return (R206) -/

/-- Whatever its target, a call is the link and then an update of PC. -/
theorem exec_call {i : Instr} (hi : (∃ off11, i = .jsr off11) ∨ (∃ base, base ≠ .r7 ∧ i = .jsrr base)) (s : State) :
    ∃ target, exec i s = .next (s.link.setPc target) := by
  obtain ⟨off11, rfl⟩ | ⟨base, -, rfl⟩ := hi
  · exact ⟨_, exec_jsr off11 s⟩
  · exact ⟨_, exec_jsrr base s⟩

/-- The step of a RET ends at the address in R7: the fetch before it keeps the registers, the arrival of a cancellation after it
keeps PC. -/
theorem step_of_ret {u : State} (h : AtBoundary u) (hret : decode u.fetch.ir = .ret) :
    ∃ w, step u = .next w ∧ w.pc = u.reg .r7 := by
  have e : exec (decode u.fetch.ir) u.fetch = .next (u.fetch.setPc (u.reg .r7)) := by
    rw [hret, exec_ret, reg_fetch]
  exact ⟨_, step_of_exec h e, by rw [cancelArrives_pc, setPc_pc]⟩

/-- Settles O50: the link of a call saves the PC after the fetch (`exec_call`), and RET takes PC from R7 (`step_of_ret`). -/
theorem callReturnRoundTrip : Obligations.CallReturnRoundTrip := by
  unfold Obligations.CallReturnRoundTrip
  intro s i hs hdecode hi
  obtain ⟨target, e⟩ := exec_call hi s.fetch
  have hlink : (s.fetch.link.setPc target).cancelArrives.reg .r7 = s.pc + 1#16 := by
    rw [reg_cancelArrives, reg_setPc, reg_r7_link, fetch_pc]
  refine ⟨_, step_of_exec hs (hdecode ▸ e), hlink, fun u hu hr7 hret => ?_⟩
  obtain ⟨w, hstep, hpc⟩ := step_of_ret hu hret
  exact ⟨w, hstep, hpc.trans (hr7.trans hlink)⟩

/-! ## BR, JMP, RET, JSR -/

/-- Settles O46: BR is one `setPc`, to the target that `branchTaken` selects; `branchTaken_iff` and, for a legal COND,
`branchTaken_iff_mask` say when. -/
theorem brBranchesOnCond : Obligations.BrBranchesOnCond := by
  unfold Obligations.BrBranchesOnCond
  refine ⟨fun ir => decode_br, fun n z p off9 s => ?_, fun ir c => branchTaken_iff_mask ir⟩
  refine ⟨_, exec_br n z p off9 s, fun taken => ?_, fun notTaken => ?_, setPc_frame s _⟩
  · rw [setPc_pc, if_pos (branchTaken_iff.2 taken)]
  · rw [setPc_pc, if_neg (mt branchTaken_iff.1 notTaken)]

/-- Settles O47: JMP is one `setPc` to the base register's value, and RET is that with R7. -/
theorem jmpAndRetJumpToTheBase : Obligations.JmpAndRetJumpToTheBase := by
  unfold Obligations.JmpAndRetJumpToTheBase
  refine ⟨fun ir => decode_jmp, fun base s => ?_, fun s => ?_⟩
  · exact ⟨_, exec_jmp base s, setPc_pc s _, setPc_frame s _⟩
  · exact ⟨_, exec_ret s, exec_jmp .r7 s, setPc_pc s _, setPc_frame s _⟩

/-- Settles O48: JSR is the link, then one `setPc` relative to the PC that was saved. -/
theorem jsrCallsPcRelative : Obligations.JsrCallsPcRelative := by
  unfold Obligations.JsrCallsPcRelative
  refine ⟨fun ir => decode_jsr, fun off11 s => ?_⟩
  refine ⟨_, exec_jsr off11 s, ?_, setPc_pc _ _, link_setPc_frame s _⟩
  rw [reg_setPc, reg_r7_link]

end Sys2Proof.Proofs
end

section
/-!
PROOFS. What the trap routines are made of (45_trap.md): the frame of an output to the console and of an update of the run state, the
events a terminated string writes (R213, R215), and the routines that the dispatcher selects (R210).
-/

namespace Sys2Proof.Proofs

open Sys2Proof.Machine Sys2Proof.Safety Sys2Proof.Laws

/-! ## The frame of an output and of an update of the run state -/

theorem sameRegsBut_addEvents (ds : List Reg) (s : State) (es : List PortEvent) : SameRegsBut ds s (s.addEvents es) :=
  fun r _ => reg_addEvents s es r

theorem sameMem_addEvents (s : State) (es : List PortEvent) : SameMem s (s.addEvents es) :=
  rawRead_addEvents s es

theorem sameRest_addEvents (s : State) (es : List PortEvent) : SameRest s (s.addEvents es) :=
  ⟨⟨addEvents_run s es, addEvents_cancelPending s es, addEvents_ir s es, addEvents_params s es⟩, addEvents_activity s es⟩

theorem sameRegsBut_setRun (ds : List Reg) (s : State) (r : RunState) : SameRegsBut ds s (s.setRun r) :=
  fun q _ => reg_setRun s r q

theorem sameMem_setRun (s : State) (r : RunState) : SameMem s (s.setRun r) :=
  rawRead_setRun s r

theorem samePorts_setRun (s : State) (r : RunState) : SamePorts s (s.setRun r) :=
  ⟨setRun_events s r, setRun_env s r⟩

/-- All that a routine which only writes to the console does besides its events: R7 is the saved PC, and nothing else changes. -/
theorem link_addEvents_frame (s : State) (es : List PortEvent) :
    (s.link.addEvents es).reg .r7 = s.pc ∧ SameRegsBut [.r7] s (s.link.addEvents es) ∧ (s.link.addEvents es).pc = s.pc ∧
      (s.link.addEvents es).cond = s.cond ∧ SameMem s (s.link.addEvents es) ∧ (s.link.addEvents es).env = s.env ∧
      SameRest s (s.link.addEvents es) :=
  ⟨(reg_addEvents _ es _).trans (reg_r7_link s), sameRegsBut_trans (sameRegsBut_link s) (sameRegsBut_addEvents [.r7] _ es),
    addEvents_pc _ es, addEvents_cond _ es, sameMem_trans (sameMem_link s) (sameMem_addEvents _ es), addEvents_env _ es,
    sameRest_trans (sameRest_link s) (sameRest_addEvents _ es)⟩

theorem conWrite_conFlush_eq (s : State) (bs : List Byte) :
    (s.conWrite bs).conFlush = s.addEvents (bs.map .conWrite ++ [.conFlush]) := by
  simp [State.conWrite, State.conFlush, State.addEvents]

/-! ## The bytes of a word of a string -/

theorem lowByte_eq_setWidth (w : Word) : lowByte w = w.setWidth 8 := by
  ext k hk
  simp [lowByte]

theorem highByte_eq_setWidth_shift (w : Word) : highByte w = (w >>> 8).setWidth 8 := by
  ext k hk
  simp [highByte]

theorem highByte_eq_zero_iff (w : Word) : highByte w = 0x00#8 ↔ w >>> 8 = 0x0000#16 := by
  rw [highByte_eq_setWidth_shift]
  bv_omega

theorem stringBytes_puts_events (w : Word) : (stringBytes .puts w).map PortEvent.conWrite = [.conWrite (w.setWidth 8)] := by
  rw [stringBytes, lowByte_eq_setWidth, List.map_singleton]

theorem stringBytes_putsp_events (w : Word) :
    (stringBytes .putsp w).map PortEvent.conWrite =
      .conWrite (w.setWidth 8) :: (if w >>> 8 = 0x0000#16 then [] else [.conWrite ((w >>> 8).setWidth 8)]) := by
  rw [stringBytes, lowByte_eq_setWidth]
  by_cases h : w >>> 8 = 0x0000#16
  · rw [if_pos ((highByte_eq_zero_iff w).2 h), if_pos h, List.map_singleton]
  · rw [if_neg (mt (highByte_eq_zero_iff w).1 h), if_neg h, highByte_eq_setWidth_shift]
    rfl

/-! ## A terminated string -/

/-- PUTS or PUTSP over a string whose first zero word is the n-th from R0 writes the bytes of the n words before it, then flushes. -/
theorem writeString_of_terminated {s : State} {n : Nat} (kind : StringKind) (hn : n < 65536)
    (hw : ∀ k < n, s.rawRead (s.reg .r0 + BitVec.ofNat 16 k) ≠ 0x0000#16)
    (h0 : s.rawRead (s.reg .r0 + BitVec.ofNat 16 n) = 0x0000#16) :
    s.writeString kind =
      s.addEvents (((List.range n).flatMap fun k =>
        (stringBytes kind (s.rawRead (s.reg .r0 + BitVec.ofNat 16 k))).map .conWrite) ++ [.conFlush]) := by
  rw [writeString_eq, stringWords_of_terminated n hn hw h0]
  simp only [List.flatMap_map, List.map_flatMap]
  rfl

/-- The link changes neither the string nor R0, where it begins. -/
theorem link_writeString_of_terminated {s : State} {n : Nat} (kind : StringKind) (hn : n < 65536)
    (hw : ∀ k < n, s.rawRead (s.reg .r0 + BitVec.ofNat 16 k) ≠ 0x0000#16)
    (h0 : s.rawRead (s.reg .r0 + BitVec.ofNat 16 n) = 0x0000#16) :
    s.link.writeString kind =
      s.link.addEvents (((List.range n).flatMap fun k =>
        (stringBytes kind (s.rawRead (s.reg .r0 + BitVec.ofNat 16 k))).map .conWrite) ++ [.conFlush]) :=
  writeString_of_terminated kind hn hw h0

/-! ## The dispatcher -/

/-- A vector outside 0x20 to 0x25 selects no routine (R217). -/
theorem dispatchTrap_of_undefined {v : BitVec 8} (hv : v.toNat < 0x20 ∨ 0x25 < v.toNat) (s : State) :
    s.dispatchTrap v = s.undefinedTrap v := by
  obtain ⟨rfl, -⟩ | ⟨rfl, -⟩ | ⟨rfl, -⟩ | ⟨rfl, -⟩ | ⟨rfl, -⟩ | ⟨rfl, -⟩ | ⟨-, e⟩ := dispatchTrap_cases s v
  iterate 6 exact absurd hv (by decide)
  exact e

/-- No routine writes PC (R44). -/
theorem dispatchTrap_pc (s : State) (v : BitVec 8) : (s.dispatchTrap v).pc = s.pc := by
  obtain ⟨-, e⟩ | ⟨-, e⟩ | ⟨-, e⟩ | ⟨-, e⟩ | ⟨-, e⟩ | ⟨-, e⟩ | ⟨-, e⟩ := dispatchTrap_cases s v <;> rw [e]
  · exact conReadFor_pc s .getc
  · rfl
  · exact writeString_pc s .puts
  · exact conReadFor_pc _ .inChar
  · exact writeString_pc s .putsp
  · rfl
  · rw [undefinedTrap_eq, setRun_pc]

/-- No routine writes a register other than R0, which GETC and IN write (R43). -/
theorem reg_dispatchTrap_of_ne {r : Reg} (hr : r ≠ .r0) (s : State) (v : BitVec 8) :
    (s.dispatchTrap v).reg r = s.reg r := by
  obtain ⟨-, e⟩ | ⟨-, e⟩ | ⟨-, e⟩ | ⟨-, e⟩ | ⟨-, e⟩ | ⟨-, e⟩ | ⟨-, e⟩ := dispatchTrap_cases s v <;> rw [e]
  · exact reg_conReadFor_of_ne hr s .getc
  · rfl
  · exact reg_writeString s .puts r
  · exact reg_conReadFor_of_ne hr _ .inChar
  · exact reg_writeString s .putsp r
  · rfl
  · rw [undefinedTrap_eq, reg_setRun]

end Sys2Proof.Proofs
end

section
/-!
PROOFS. TRAP and the routines that do not read the console (45_trap.md R210, R212, R213, R215 to R217). Every TRAP is the link and then a
routine: each instruction's equation says which updates that is, and the values and frames of those updates give the statements.
-/

namespace Sys2Proof.Proofs

open Sys2Proof.Machine Sys2Proof.Safety Sys2Proof.Laws

/-! ## The instructions' equations -/

theorem exec_trap (v : BitVec 8) (s : State) : exec (.trap v) s = .next (s.link.dispatchTrap v) := rfl

theorem exec_out (s : State) :
    exec .out s = .next (s.link.addEvents [.conWrite ((s.reg .r0).setWidth 8), .conFlush]) := by
  have e : exec .out s = .next ((s.link.conWrite [lowByte (s.reg .r0)]).conFlush) := rfl
  rw [e, conWrite_conFlush_eq, lowByte_eq_setWidth]
  rfl

theorem exec_puts (s : State) : exec .puts s = .next (s.link.writeString .puts) := rfl

theorem exec_putsp (s : State) : exec .putsp s = .next (s.link.writeString .putsp) := rfl

theorem exec_halt (s : State) :
    exec .halt s =
      .next ((s.link.addEvents (s.params.haltNotice.map .conWrite ++ [.conFlush])).setRun (.halted .haltTrap)) := by
  have e : exec .halt s = .next ((s.link.conWrite s.params.haltNotice).conFlush.setRun (.halted .haltTrap)) := rfl
  rw [e, conWrite_conFlush_eq]

theorem exec_trap_of_undefined {v : BitVec 8} (hv : v.toNat < 0x20 ∨ 0x25 < v.toNat) (s : State) :
    exec (.trap v) s = .next (s.link.undefinedTrap v) := by
  rw [exec_trap, dispatchTrap_of_undefined hv]

/-- The six service vectors run the instructions of their names (R210). -/
theorem exec_trap_service (s : State) :
    exec (.trap 0x20#8) s = exec .getc s ∧ exec (.trap 0x21#8) s = exec .out s ∧ exec (.trap 0x22#8) s = exec .puts s ∧
      exec (.trap 0x23#8) s = exec .inChar s ∧ exec (.trap 0x24#8) s = exec .putsp s ∧
      exec (.trap 0x25#8) s = exec .halt s :=
  ⟨rfl, rfl, rfl, rfl, rfl, rfl⟩

/-- The instruction a TRAP word decodes to, under a routine's name or as `trap`, has the effect of TRAP with the word's vector. -/
theorem exec_decodeTrap (v : BitVec 8) (s : State) : exec (decodeTrap v) s = exec (.trap v) s := by
  obtain ⟨hgetc, hout, hputs, hin, hputsp, hhalt⟩ := exec_trap_service s
  unfold decodeTrap
  split_ifs with h0 h1 h2 h3 h4 h5
  · rw [h0, hgetc]
  · rw [h1, hout]
  · rw [h2, hputs]
  · rw [h3, hin]
  · rw [h4, hputsp]
  · rw [h5, hhalt]
  · rfl

/-! ## The statements -/

/-- Settles O51: the words by `exec_decodeTrap`, R7 and PC by the link, after which no routine writes either. -/
theorem trapSavesPcAndDispatches : Obligations.TrapSavesPcAndDispatches := by
  unfold Obligations.TrapSavesPcAndDispatches
  refine ⟨fun ir h s => ?_, exec_trap_service, fun v s hv => exec_trap_of_undefined hv s, fun v s => ?_⟩
  · rw [decode_trap h, exec_decodeTrap]
  · refine ⟨_, exec_trap v s, ?_, ?_⟩
    · rw [reg_dispatchTrap_of_ne (by decide), reg_r7_link]
    · rw [dispatchTrap_pc, link_pc]

/-- Settles O53: OUT is the link and two events. -/
theorem outWritesTheLowByte : Obligations.OutWritesTheLowByte := by
  unfold Obligations.OutWritesTheLowByte
  exact fun s => ⟨_, exec_out s, addEvents_events _ _, link_addEvents_frame s _⟩

/-- Settles O54: of each word before the terminator PUTS writes one byte (`link_writeString_of_terminated`). -/
theorem putsWritesTheString : Obligations.PutsWritesTheString := by
  unfold Obligations.PutsWritesTheString
  intro s n hn hw h0
  rw [exec_puts, link_writeString_of_terminated .puts hn hw h0]
  refine ⟨_, rfl, ?_, link_addEvents_frame s _⟩
  rw [addEvents_events, link_events, List.append_assoc]
  simp only [stringBytes_puts_events, ← List.map_eq_flatMap]

/-- Settles O56: of each word before the terminator PUTSP writes the low byte and a non-zero high byte
(`link_writeString_of_terminated`). -/
theorem putspWritesThePackedString : Obligations.PutspWritesThePackedString := by
  unfold Obligations.PutspWritesThePackedString
  intro s n hn hw h0
  rw [exec_putsp, link_writeString_of_terminated .putsp hn hw h0]
  refine ⟨_, rfl, ?_, link_addEvents_frame s _⟩
  rw [addEvents_events, link_events, List.append_assoc]
  simp only [stringBytes_putsp_events]

/-- Settles O57: HALT is the link, the notice's events and the flush, and an update of the run state. -/
theorem haltEndsTheRunGracefully : Obligations.HaltEndsTheRunGracefully := by
  unfold Obligations.HaltEndsTheRunGracefully
  intro s
  obtain ⟨hr7, hregs, hpc, hcond, hmem, henv, ⟨-, hcancel, hir, hparams⟩, hactivity⟩ :=
    link_addEvents_frame s (s.params.haltNotice.map .conWrite ++ [.conFlush])
  refine ⟨_, exec_halt s, setRun_run _ _, ?_, hr7, sameRegsBut_trans hregs (sameRegsBut_setRun _ _ _), hpc, hcond,
    sameMem_trans hmem (sameMem_setRun _ _), henv, hactivity, hcancel, hir, hparams⟩
  rw [setRun_events, addEvents_events, link_events, List.append_assoc]

/-- Settles O58: the policy chooses the run state (`undefinedTrap_eq`); besides it only the link's R7 changes. -/
theorem undefinedVectorFollowsThePolicy : Obligations.UndefinedVectorFollowsThePolicy := by
  unfold Obligations.UndefinedVectorFollowsThePolicy
  intro v s hv
  refine ⟨_, exec_trap_of_undefined hv s, ?_⟩
  rw [undefinedTrap_eq]
  refine ⟨fun habort => ?_, fun hnoop => ?_, (reg_setRun _ _ _).trans (reg_r7_link s),
    sameRegsBut_trans (sameRegsBut_link s) (sameRegsBut_setRun _ _ _), setRun_pc _ _, setRun_cond _ _,
    sameMem_trans (sameMem_link s) (sameMem_setRun _ _), samePorts_trans (samePorts_link s) (samePorts_setRun _ _),
    setRun_activity _ _, setRun_cancelPending _ _, setRun_ir _ _, setRun_params _ _⟩
  · rw [setRun_run, link_params, habort, if_pos rfl]
  · rw [setRun_run, link_params, hnoop]
    rfl

end Sys2Proof.Proofs
end

section
/-!
PROOFS. RES and RTI (46_reserved.md R230, R231). Each of them is one `abort`, an update of the run state alone.
-/

namespace Sys2Proof.Proofs

open Sys2Proof.Machine Sys2Proof.Safety Sys2Proof.Laws

/-! ## The instructions' equations -/

theorem exec_res (s : State) : exec .res s = .next (s.abort .reservedOpcode) := rfl

theorem exec_rti (s : State) : exec .rti s = .next (s.abort .rtiOpcode) := rfl

/-! ## The abort -/

theorem abort_run (s : State) (reason : AbortReason) : (s.abort reason).run = .aborted reason :=
  setRun_run s _

/-- An abort is precise: besides the run state nothing changes (R241). -/
theorem abort_frame (s : State) (reason : AbortReason) :
    SameRegsBut [] s (s.abort reason) ∧ (s.abort reason).pc = s.pc ∧ (s.abort reason).cond = s.cond ∧
      SameMem s (s.abort reason) ∧ SamePorts s (s.abort reason) ∧ (s.abort reason).activity = s.activity ∧
      (s.abort reason).cancelPending = s.cancelPending ∧ (s.abort reason).ir = s.ir ∧
      (s.abort reason).params = s.params :=
  ⟨sameRegsBut_setRun _ _ _, setRun_pc _ _, setRun_cond _ _, sameMem_setRun _ _, samePorts_setRun _ _,
    setRun_activity _ _, setRun_cancelPending _ _, setRun_ir _ _, setRun_params _ _⟩

/-! ## The statement -/

/-- Settles O60: the words by the decoder's equations, the effect by that of an abort. -/
theorem resAndRtiAbortTheRun : Obligations.ResAndRtiAbortTheRun := by
  unfold Obligations.ResAndRtiAbortTheRun
  refine ⟨fun ir => ⟨decode_res, decode_rti⟩, fun s => ?_, fun s => ?_⟩
  · exact ⟨_, exec_res s, abort_run s _, abort_frame s _⟩
  · exact ⟨_, exec_rti s, abort_run s _, abort_frame s _⟩

end Sys2Proof.Proofs
end

section
/-!
PROOFS. The fatal abort (60_exceptions.md R240, R241). First what an instruction can do to the run state: keep it, end it by HALT, or raise
an abort, and then the instruction and its next state are those that the abort's reason names. A step that ends in an abort is therefore
a fetch, that next state, and at most the arrival of a cancellation, which an ended run does not feel.
-/

namespace Sys2Proof.Proofs

open Sys2Proof.Machine Sys2Proof.Safety Sys2Proof.Laws

/-! ## The instruction and the next state that a reason names -/

/-- The instruction that raises an abort (R217, R230, R231). -/
def raiser : AbortReason → Instr
  | .reservedOpcode => .res
  | .rtiOpcode => .rti
  | .undefinedTrap v => .trap v

/-- The next state of the instruction that raises an abort in s: a TRAP has saved PC in R7 before (R210). -/
def raised (s : State) : AbortReason → State
  | .reservedOpcode => s.abort .reservedOpcode
  | .rtiOpcode => s.abort .rtiOpcode
  | .undefinedTrap v => s.link.abort (.undefinedTrap v)

theorem raised_run (s : State) (reason : AbortReason) : (raised s reason).run = .aborted reason := by
  cases reason <;> exact abort_run _ _

/-- The registers apart, whichever reason it has an abort changes only the run state. -/
theorem raised_frame (s : State) (reason : AbortReason) :
    (raised s reason).pc = s.pc ∧ (raised s reason).ir = s.ir ∧ (raised s reason).cond = s.cond ∧
      (raised s reason).params = s.params ∧ SameMem s (raised s reason) ∧ (raised s reason).events = s.events := by
  cases reason <;> exact ⟨rfl, rfl, rfl, rfl, fun _ => rfl, rfl⟩

/-- The word of an instruction that is still a TRAP after decoding carries its vector (R103, R210). -/
theorem fieldVect8_of_decode_trap {w : Word} {v : BitVec 8} (h : decode w = .trap v) : fieldVect8 w = v := by
  rw [decode_trap (fieldOpcode_of_decode h)] at h
  unfold decodeTrap at h
  split_ifs at h
  exact Instr.trap.inj h

/-! ## What an instruction can do to the run state -/

@[simp] theorem loadFrom_run (s : State) (dr : Reg) (ea : Word) : (s.loadFrom dr ea).run = s.run := by
  rw [loadFrom_eq, writeDest_run, afterRead_run]

@[simp] theorem memWrite_run (s : State) (a v : Word) : (s.memWrite a v).run = s.run := rfl

@[simp] theorem inRoutine_run (s : State) : s.inRoutine.run = s.run := conReadFor_run _ .inChar

/-- Everything the Trap Dispatcher can do to the run state (R216, R217). -/
theorem dispatchTrap_run_cases (s : State) (v : BitVec 8) :
    (s.dispatchTrap v).run = s.run ∨ (s.dispatchTrap v).run = .halted .haltTrap ∨
      s.dispatchTrap v = s.abort (.undefinedTrap v) := by
  obtain ⟨-, e⟩ | ⟨-, e⟩ | ⟨-, e⟩ | ⟨-, e⟩ | ⟨-, e⟩ | ⟨-, e⟩ | ⟨-, e⟩ := dispatchTrap_cases s v <;> rw [e]
  · exact .inl (conReadFor_run s .getc)
  · exact .inl rfl
  · exact .inl (writeString_run s .puts)
  · exact .inl (inRoutine_run s)
  · exact .inl (writeString_run s .putsp)
  · exact .inr (.inl rfl)
  · rw [undefinedTrap_eq]
    split
    · exact .inr (.inr rfl)
    · exact .inl (setRun_run s _)

/-- Everything an instruction can do to the run state: keep it, end the run by HALT, or raise an abort (R140, R240). -/
theorem exec_run_cases {i : Instr} {s t : State} (h : exec i s = .next t) :
    t.run = s.run ∨ t.run = .halted .haltTrap ∨ ∃ reason, i = raiser reason ∧ t = raised s reason := by
  cases i
  case addReg | addImm | andReg | andImm | not | lea | st | str | jmp | ret | jsr | jsrr | out => cases h; exact .inl rfl
  case ld | ldr => cases h; exact .inl (loadFrom_run s _ _)
  case ldi => cases h; exact .inl ((loadFrom_run _ _ _).trans (afterRead_run s _))
  case sti => cases h; exact .inl ((memWrite_run _ _ _).trans (afterRead_run s _))
  case br =>
    cases h
    split <;> exact .inl rfl
  case getc => cases h; exact .inl (conReadFor_run s.link .getc)
  case inChar => cases h; exact .inl (inRoutine_run s.link)
  case puts => cases h; exact .inl (writeString_run s.link .puts)
  case putsp => cases h; exact .inl (writeString_run s.link .putsp)
  case halt => cases h; exact .inr (.inl rfl)
  case rti => cases h; exact .inr (.inr ⟨.rtiOpcode, rfl, rfl⟩)
  case res => cases h; exact .inr (.inr ⟨.reservedOpcode, rfl, rfl⟩)
  case trap v =>
    cases h
    obtain e | e | e := dispatchTrap_run_cases s.link v
    · exact .inl e
    · exact .inr (.inl e)
    · exact .inr (.inr ⟨.undefinedTrap v, rfl, e⟩)

/-- An instruction that ends in an abort is the one its reason names, and so is its next state. -/
theorem exec_of_aborted {i : Instr} {s t : State} {reason : AbortReason} (hs : s.run = .running) (h : exec i s = .next t)
    (ht : t.run = .aborted reason) : i = raiser reason ∧ t = raised s reason := by
  obtain e | e | ⟨reason', hi, rfl⟩ := exec_run_cases h
  · cases (hs.symm.trans e.symm).trans ht
  · cases e.symm.trans ht
  · cases (raised_run s reason').symm.trans ht
    exact ⟨hi, rfl⟩

/-! ## The step -/

/-- The arrival of a cancellation keeps the run state or ends the run as a halt, never as an abort (R243). -/
theorem cancelArrives_run_cases (s : State) : s.cancelArrives.run = s.run ∨ s.cancelArrives.run = .halted .cancel := by
  obtain ⟨_, _, e⟩ | ⟨_, _, _, e⟩ := cancelArrives_cases s <;> rw [e]
  · exact .inl rfl
  · exact .inr rfl

theorem next_of_afterTransition {o : Host.Outcome State Fault Refusal} {t : State} (h : afterTransition o = .next t) :
    ∃ u, o = .next u ∧ t = u.cancelArrives := by
  cases o with
  | next u => exact ⟨u, rfl, (Host.Outcome.next.inj h).symm⟩
  | fault r => cases h
  | refused r => cases h

/-- A step that ends in an abort ran an instruction that did, after the fetch (R141, R240). -/
theorem exec_of_step_aborted {s t : State} {reason : AbortReason} (hs : s.run = .running) (h : step s = .next t)
    (ht : t.run = .aborted reason) :
    ∃ u, exec (decode s.fetch.ir) s.fetch = .next u ∧ u.run = .aborted reason ∧ t = u.cancelArrives := by
  obtain ⟨hrun, -⟩ | ⟨-, -, -, e⟩ | ⟨-, -, -, e⟩ | ⟨-, -, -, e⟩ | ⟨-, -, e⟩ := step_cases s
  · exact absurd hs hrun
  · cases Host.Outcome.next.inj (e.symm.trans h)
    cases ht
  · obtain ⟨u, hu, rfl⟩ := next_of_afterTransition (e.symm.trans h)
    obtain hrun | hrun := cancelArrives_run_cases u
    · exact ⟨u, hu, hrun.symm.trans ht, rfl⟩
    · cases hrun.symm.trans ht
  · cases Host.Outcome.next.inj (e.symm.trans h)
    cases hs.symm.trans ht
  · cases Host.Outcome.next.inj (e.symm.trans h)
    cases hs.symm.trans ht

/-- A step that ends in an abort is the fetch, the abort of the instruction its reason names, and the arrival of a cancellation. -/
theorem step_of_aborted {s t : State} {reason : AbortReason} (hs : s.run = .running) (h : step s = .next t)
    (ht : t.run = .aborted reason) : decode s.fetch.ir = raiser reason ∧ t = (raised s.fetch reason).cancelArrives := by
  obtain ⟨u, hu, hrun, rfl⟩ := exec_of_step_aborted hs h ht
  obtain ⟨hi, rfl⟩ := exec_of_aborted ((fetch_run s).trans hs) hu hrun
  exact ⟨hi, rfl⟩

/-! ## The statement -/

/-- Settles O27: by `step_of_aborted`, `raised_frame` gives what all reasons share, and the reason decides about R7. -/
theorem abortIsPrecise : Obligations.AbortIsPrecise := by
  unfold Obligations.AbortIsPrecise
  intro s t reason hs h ht
  obtain ⟨hi, rfl⟩ := step_of_aborted hs h ht
  obtain ⟨hpc, hir, hcond, hparams, hmem, hevents⟩ := raised_frame s.fetch reason
  refine ⟨?_, ?_, ?_, ?_, fun a => ?_, ?_, ?_⟩
  · rw [cancelArrives_pc, hpc, fetch_pc, BitVec.add_sub_cancel]
  · rw [cancelArrives_ir, hir, fetch_ir]
  · rw [cancelArrives_cond, hcond, fetch_cond]
  · rw [cancelArrives_params, hparams, fetch_params]
  · rw [rawRead_cancelArrives, hmem a, rawRead_fetch]
  · rw [cancelArrives_events, hevents, fetch_events]
  · cases reason with
    | reservedOpcode | rtiOpcode => exact fun r _ => (reg_cancelArrives _ r).trans (reg_fetch s r)
    | undefinedTrap v =>
      refine ⟨fun r hr => ?_, ?_, ?_⟩
      · exact (reg_cancelArrives _ r).trans ((sameRegsBut_link s.fetch r hr).trans (reg_fetch s r))
      · rw [reg_cancelArrives, cancelArrives_pc]
        exact reg_r7_link s.fetch
      · rw [cancelArrives_ir, hir]
        exact fieldVect8_of_decode_trap hi

end Sys2Proof.Proofs
end

section
/-!
PROOFS. The round trips between words and instructions (30_encoding.md R103, R107, R112). A field read from the word of an instruction is
the field that was placed there: so decode inverts encode, format by format. A field of a word placed back is the word under the field's
mask: so encode inverts decode up to the unused bits, because the masks of a format's fields add up to `usedBits`.
-/

namespace Sys2Proof.Proofs

open Sys2Proof.Laws

/-! ## Reading a placed field -/

section
variable {n : Nat} (field : BitVec n)

@[simp] theorem getElem_place (lo k : Nat) (hk : k < 16) :
    (place field lo)[k] = (decide (lo ≤ k) && field.getLsbD (k - lo)) := by
  rw [← BitVec.getLsbD_eq_getElem, place_getLsbD, decide_eq_true hk, Bool.true_and]

@[simp] theorem extractLsb'_place_self {lo : Nat} (h : lo + n ≤ 16) : (place field lo).extractLsb' lo n = field := by
  ext k hk
  rw [BitVec.getElem_extractLsb', BitVec.getLsbD_eq_getElem (by omega), getElem_place, Nat.add_sub_cancel_left,
    decide_eq_true (Nat.le_add_right lo k), Bool.true_and, BitVec.getLsbD_eq_getElem]

@[simp] theorem extractLsb'_place_of_disjoint {lo lo' n' : Nat} (h : lo + n ≤ lo' ∨ lo' + n' ≤ lo) :
    (place field lo).extractLsb' lo' n' = 0#n' := by
  ext k hk
  rw [BitVec.getElem_extractLsb', place_getLsbD, BitVec.getElem_zero]
  obtain below | above := h
  · rw [BitVec.getLsbD_of_ge field (lo' + k - lo) (by omega), Bool.and_false]
  · rw [decide_eq_false (show ¬lo ≤ lo' + k by omega), Bool.and_false, Bool.false_and]

end

/-- Below the opcode the word of an instruction is its operand bits. -/
@[simp] theorem extractLsb'_encode {lo n : Nat} (h : lo + n ≤ 12) (i : Instr) :
    (encode i).extractLsb' lo n = (operandBits i).extractLsb' lo n := by
  rw [encode, BitVec.extractLsb'_or, extractLsb'_place_of_disjoint _ (.inr h), BitVec.zero_or]

@[simp] theorem getElem_encode {k : Nat} (h : k < 12) (i : Instr) : (encode i)[k] = (operandBits i)[k] := by
  rw [encode, BitVec.getElem_or, getElem_place, decide_eq_false (Nat.not_le.2 h), Bool.false_and, Bool.false_or]

/-! ## Decode after encode -/

theorem decodeJmp_of_wellFormed {base : Reg} (h : WellFormed (.jmp base) = true) : decodeJmp base = .jmp base :=
  if_neg (by simpa [WellFormed] using h)

theorem decodeTrap_of_wellFormed {v : BitVec 8} (h : WellFormed (.trap v) = true) : decodeTrap v = .trap v := by
  have other {w : BitVec 8} (hw : isServiceVector w = true) : v ≠ w := by
    rintro rfl
    simp [WellFormed, hw] at h
  simp only [decodeTrap, if_neg (other (w := 0x20#8) rfl), if_neg (other (w := 0x21#8) rfl), if_neg (other (w := 0x22#8) rfl),
    if_neg (other (w := 0x23#8) rfl), if_neg (other (w := 0x24#8) rfl), if_neg (other (w := 0x25#8) rfl)]

/-- Each format's equation of the decoder, at the word whose fields are the instruction's operands (R103). -/
theorem decode_encode {i : Instr} (h : WellFormed i = true) : decode (encode i) = i := by
  cases i with
  | addReg dr sr1 sr2 =>
    rw [decode_addReg (OpcodeField.addReg dr sr1 sr2) (by simp [operandBits])]
    simp [fieldR9, fieldR6, fieldR0, operandBits, BitVec.extractLsb'_or]
  | addImm dr sr1 imm5 =>
    rw [decode_addImm (OpcodeField.addImm dr sr1 imm5) (by simp [operandBits])]
    simp [fieldR9, fieldR6, fieldImm5, operandBits, BitVec.extractLsb'_or]
  | andReg dr sr1 sr2 =>
    rw [decode_andReg (OpcodeField.andReg dr sr1 sr2) (by simp [operandBits])]
    simp [fieldR9, fieldR6, fieldR0, operandBits, BitVec.extractLsb'_or]
  | andImm dr sr1 imm5 =>
    rw [decode_andImm (OpcodeField.andImm dr sr1 imm5) (by simp [operandBits])]
    simp [fieldR9, fieldR6, fieldImm5, operandBits, BitVec.extractLsb'_or]
  | not dr sr =>
    rw [decode_not (OpcodeField.not dr sr)]
    simp [fieldR9, fieldR6, operandBits, BitVec.extractLsb'_or]
  | ld dr off9 =>
    rw [decode_ld (OpcodeField.ld dr off9)]
    simp [fieldR9, fieldOff9, operandBits, BitVec.extractLsb'_or]
  | ldi dr off9 =>
    rw [decode_ldi (OpcodeField.ldi dr off9)]
    simp [fieldR9, fieldOff9, operandBits, BitVec.extractLsb'_or]
  | ldr dr base off6 =>
    rw [decode_ldr (OpcodeField.ldr dr base off6)]
    simp [fieldR9, fieldR6, fieldOff6, operandBits, BitVec.extractLsb'_or]
  | lea dr off9 =>
    rw [decode_lea (OpcodeField.lea dr off9)]
    simp [fieldR9, fieldOff9, operandBits, BitVec.extractLsb'_or]
  | st sr off9 =>
    rw [decode_st (OpcodeField.st sr off9)]
    simp [fieldR9, fieldOff9, operandBits, BitVec.extractLsb'_or]
  | sti sr off9 =>
    rw [decode_sti (OpcodeField.sti sr off9)]
    simp [fieldR9, fieldOff9, operandBits, BitVec.extractLsb'_or]
  | str sr base off6 =>
    rw [decode_str (OpcodeField.str sr base off6)]
    simp [fieldR9, fieldR6, fieldOff6, operandBits, BitVec.extractLsb'_or]
  | br n z p off9 =>
    rw [decode_br (OpcodeField.br n z p off9)]
    simp [fieldOff9, operandBits, BitVec.extractLsb'_or]
  | jmp base =>
    rw [decode_jmp (OpcodeField.jmp base)]
    simp [fieldR6, operandBits, decodeJmp_of_wellFormed h]
  | jsr off11 =>
    rw [decode_jsr (OpcodeField.jsr off11) (by simp [operandBits])]
    simp [fieldOff11, operandBits, BitVec.extractLsb'_or]
  | jsrr base =>
    rw [decode_jsrr (OpcodeField.jsrr base) (by simp [operandBits])]
    simp [fieldR6, operandBits]
  | trap v =>
    rw [decode_trap (OpcodeField.trap v)]
    simp [fieldVect8, operandBits, decodeTrap_of_wellFormed h]
  | ret | rti | res | getc | out | puts | inChar | putsp | halt => rfl

/-- Settles O1: `decode_encode`. -/
theorem decodeEncodeRoundTrip : Obligations.DecodeEncodeRoundTrip := by
  unfold Obligations.DecodeEncodeRoundTrip
  exact fun i => decode_encode

/-! ## Encode after decode -/

section
variable {w : Word}

/-- Placing back the field of a word keeps the word's bits in the field's place and clears the others. -/
theorem place_extractLsb' (w : Word) (lo n : Nat) :
    place (w.extractLsb' lo n) lo = w &&& place (BitVec.allOnes n) lo := by
  ext k hk
  rw [BitVec.getElem_and, getElem_place, getElem_place, BitVec.getLsbD_extractLsb', BitVec.getLsbD_allOnes]
  by_cases h : lo ≤ k
  · rw [Nat.add_sub_cancel' h, BitVec.getLsbD_eq_getElem hk]
    simp [h, Bool.and_comm]
  · simp [h]

theorem place_ofBool (w : Word) (k : Nat) : place (BitVec.ofBool (w.getLsbD k)) k = w &&& BitVec.twoPow 16 k := by
  ext i hi
  rw [BitVec.getElem_and, BitVec.getElem_twoPow, getElem_place, BitVec.getLsbD_ofBool]
  obtain h | rfl | h := Nat.lt_trichotomy i k
  · simp [h.ne, Nat.not_le.2 h]
  · simp [BitVec.getLsbD_eq_getElem hi]
  · simp [h.ne', Nat.sub_ne_zero_of_lt h]

theorem place_of_set {k : Nat} (h : w.getLsbD k = true) : place 1#1 k = w &&& BitVec.twoPow 16 k := by
  simpa [h] using place_ofBool w k

theorem place_of_clear {k : Nat} (h : w.getLsbD k = false) : 0x0000#16 = w &&& BitVec.twoPow 16 k := by
  rw [← place_ofBool, h]
  simp [place]

variable (w)

@[simp] theorem place_fieldOpcode : place (fieldOpcode w) 12 = w &&& 0xF000#16 := place_extractLsb' w 12 4

@[simp] theorem place_fieldR9 : place (fieldR9 w).toBits 9 = w &&& 0x0E00#16 := by
  rw [fieldR9, toBits_ofBits, place_extractLsb']
  rfl

@[simp] theorem place_fieldR6 : place (fieldR6 w).toBits 6 = w &&& 0x01C0#16 := by
  rw [fieldR6, toBits_ofBits, place_extractLsb']
  rfl

@[simp] theorem place_fieldR0 : place (fieldR0 w).toBits 0 = w &&& 0x0007#16 := by
  rw [fieldR0, toBits_ofBits, place_extractLsb']
  rfl

@[simp] theorem place_fieldImm5 : place (fieldImm5 w) 0 = w &&& 0x001F#16 := place_extractLsb' w 0 5
@[simp] theorem place_fieldOff6 : place (fieldOff6 w) 0 = w &&& 0x003F#16 := place_extractLsb' w 0 6
@[simp] theorem place_fieldOff9 : place (fieldOff9 w) 0 = w &&& 0x01FF#16 := place_extractLsb' w 0 9
@[simp] theorem place_fieldOff11 : place (fieldOff11 w) 0 = w &&& 0x07FF#16 := place_extractLsb' w 0 11
@[simp] theorem place_fieldVect8 : place (fieldVect8 w) 0 = w &&& 0x00FF#16 := place_extractLsb' w 0 8

end

/-! RET and the service routines share the format of the row they belong to, JMP and TRAP. -/

@[simp] theorem operandBits_decodeJmp (base : Reg) : operandBits (decodeJmp base) = place base.toBits 6 := by
  unfold decodeJmp
  split_ifs with h
  · rw [h, operandBits]
  · rfl

@[simp] theorem usedBits_decodeJmp (base : Reg) : usedBits (decodeJmp base) = 0xF1C0#16 := by
  unfold decodeJmp
  split_ifs <;> rfl

theorem wellFormed_decodeJmp (base : Reg) : WellFormed (decodeJmp base) = true := by
  cases base <;> rfl

@[simp] theorem operandBits_decodeTrap (v : BitVec 8) : operandBits (decodeTrap v) = place v 0 := by
  revert v
  decide

@[simp] theorem usedBits_decodeTrap (v : BitVec 8) : usedBits (decodeTrap v) = 0xF0FF#16 := by
  unfold decodeTrap
  split_ifs <;> rfl

theorem wellFormed_decodeTrap (v : BitVec 8) : WellFormed (decodeTrap v) = true := by
  revert v
  decide

theorem wellFormed_decode (w : Word) : WellFormed (decode w) = true := by
  obtain h | h | h | h | h | h | h | h | h | h | h | h | h | h | h | h := opcode_cases (fieldOpcode w)
  · rw [decode_br h, WellFormed]
  · rw [decode_add h]; split <;> rfl
  · rw [decode_ld h, WellFormed]
  · rw [decode_st h, WellFormed]
  · rw [decode_call h]; split <;> rfl
  · rw [decode_and h]; split <;> rfl
  · rw [decode_ldr h, WellFormed]
  · rw [decode_str h, WellFormed]
  · rw [decode_rti h, WellFormed]
  · rw [decode_not h, WellFormed]
  · rw [decode_ldi h, WellFormed]
  · rw [decode_sti h, WellFormed]
  · rw [decode_jmp h, wellFormed_decodeJmp]
  · rw [decode_res h, WellFormed]
  · rw [decode_lea h, WellFormed]
  · rw [decode_trap h, wellFormed_decodeTrap]

/-- Format by format, the masks of the fields add up to the used bits (R107); a mode bit counts as used, set or clear. -/
theorem encode_decode (w : Word) : encode (decode w) = w &&& usedBits (decode w) := by
  rw [encode, opcodeOf_decode]
  obtain h | h | h | h | h | h | h | h | h | h | h | h | h | h | h | h := opcode_cases (fieldOpcode w)
  · rw [decode_br h]
    simp only [operandBits, usedBits, place_ofBool, place_fieldOpcode, place_fieldOff9, ← BitVec.and_or_distrib_left]
    rfl
  · cases hm : w.getLsbD 5 with
    | true =>
      rw [decode_addImm h hm]
      simp [operandBits, usedBits, place_of_set hm, BitVec.twoPow, ← BitVec.and_or_distrib_left]
    | false =>
      rw [decode_addReg h hm, ← BitVec.or_zero (x := operandBits _), place_of_clear hm]
      simp [operandBits, usedBits, BitVec.twoPow, ← BitVec.and_or_distrib_left]
  · rw [decode_ld h]
    simp [operandBits, usedBits, ← BitVec.and_or_distrib_left]
  · rw [decode_st h]
    simp [operandBits, usedBits, ← BitVec.and_or_distrib_left]
  · cases hm : w.getLsbD 11 with
    | true =>
      rw [decode_jsr h hm]
      simp [operandBits, usedBits, place_of_set hm, BitVec.twoPow, ← BitVec.and_or_distrib_left]
    | false =>
      rw [decode_jsrr h hm, ← BitVec.or_zero (x := operandBits _), place_of_clear hm]
      simp [operandBits, usedBits, BitVec.twoPow, ← BitVec.and_or_distrib_left]
  · cases hm : w.getLsbD 5 with
    | true =>
      rw [decode_andImm h hm]
      simp [operandBits, usedBits, place_of_set hm, BitVec.twoPow, ← BitVec.and_or_distrib_left]
    | false =>
      rw [decode_andReg h hm, ← BitVec.or_zero (x := operandBits _), place_of_clear hm]
      simp [operandBits, usedBits, BitVec.twoPow, ← BitVec.and_or_distrib_left]
  · rw [decode_ldr h]
    simp [operandBits, usedBits, ← BitVec.and_or_distrib_left]
  · rw [decode_str h]
    simp [operandBits, usedBits, ← BitVec.and_or_distrib_left]
  · rw [decode_rti h]
    simp [operandBits, usedBits]
  · rw [decode_not h]
    simp [operandBits, usedBits, ← BitVec.and_or_distrib_left]
  · rw [decode_ldi h]
    simp [operandBits, usedBits, ← BitVec.and_or_distrib_left]
  · rw [decode_sti h]
    simp [operandBits, usedBits, ← BitVec.and_or_distrib_left]
  · rw [decode_jmp h]
    simp [← BitVec.and_or_distrib_left]
  · rw [decode_res h]
    simp [operandBits, usedBits]
  · rw [decode_lea h]
    simp [operandBits, usedBits, ← BitVec.and_or_distrib_left]
  · rw [decode_trap h]
    simp [← BitVec.and_or_distrib_left]

/-- Settles O2: `wellFormed_decode` and `encode_decode`. -/
theorem encodeDecodeKeepsUsedBits : Obligations.EncodeDecodeKeepsUsedBits := by
  unfold Obligations.EncodeDecodeKeepsUsedBits
  exact fun w => ⟨wellFormed_decode w, encode_decode w⟩

/-! ## The spec's worked examples -/

/-- Settles O5: twelve words, each decoded. -/
theorem specExampleWordsDecode : Obligations.SpecExampleWordsDecode := by
  unfold Obligations.SpecExampleWordsDecode
  decide

end Sys2Proof.Proofs
end

section
/-!
PROOFS. Reads through the keyboard overlay (20_memory.md R72 to R75), from the facts about one MemRead, and JSRR (44_control.md R204),
from the link and the update of PC.
-/

namespace Sys2Proof.Proofs

open Sys2Proof.Machine Sys2Proof.Safety Sys2Proof.Laws

/-- Settles O8: the effect and the frame of one MemRead. -/
theorem memReadGoesThroughTheOverlay : Obligations.MemReadGoesThroughTheOverlay := by
  unfold Obligations.MemReadGoesThroughTheOverlay
  exact fun s a => ⟨memRead_eq s a, readEffect_afterRead s a, sameRegsBut_afterRead [] s a, afterRead_pc s a,
    afterRead_cond s a, sameRest_afterRead s a⟩

@[simp] theorem kbdAnswer_memWrite (s : State) (a v : Word) : (s.memWrite a v).kbdAnswer = s.kbdAnswer := rfl

/-- What a poll leaves in KBDR: the character of a key, else what was there (R75). -/
theorem rawRead_kbdr_pollKeyboard (s : State) :
    s.pollKeyboard.rawRead KBDR = match s.kbdAnswer with
      | some c => zext8 c
      | none => s.rawRead KBDR := by
  cases h : s.kbdAnswer with
  | some c => rw [pollKeyboard_of_key h, rawRead_memWrite_self]
  | none => rw [pollKeyboard_of_no_key h, rawRead_memWrite_of_ne kbdr_ne_kbsr, rawRead_addEvents, rawRead_setEnv]

/-- Settles O10: KBSR by `memRead_kbsr`, whose answer no store changes; KBDR is an ordinary cell but for a poll's key. -/
theorem keyboardCellsReadAsTheOverlaySays : Obligations.KeyboardCellsReadAsTheOverlaySays := by
  unfold Obligations.KeyboardCellsReadAsTheOverlaySays
  intro s v
  refine ⟨?_, rawRead_memWrite_self s KBSR v, ?_, fun c hc => ?_, fun hc => ?_⟩
  · rw [memRead_kbsr, kbdAnswer_memWrite]
  · rw [memRead_of_ne kbdr_ne_kbsr, rawRead_memWrite_self]
  · rw [memRead_of_ne kbdr_ne_kbsr, afterRead_kbsr, rawRead_kbdr_pollKeyboard, kbdAnswer_memWrite, hc]
  · rw [memRead_of_ne kbdr_ne_kbsr, afterRead_kbsr, rawRead_kbdr_pollKeyboard, kbdAnswer_memWrite, hc]
    exact rawRead_memWrite_self s KBDR v

/-- Settles O49: JSRR is the link, then one `setPc` to the base register as the link has left it. -/
theorem jsrrCallsThroughTheBase : Obligations.JsrrCallsThroughTheBase := by
  unfold Obligations.JsrrCallsThroughTheBase
  refine ⟨fun ir => decode_jsrr, fun base s => ?_⟩
  refine ⟨_, exec_jsrr base s, reg_r7_link s, rfl, fun hbase => ?_, fun hbase => ?_, link_setPc_frame s _⟩
  · rw [setPc_pc, reg_link, if_neg hbase]
  · rw [setPc_pc, hbase, reg_r7_link]

end Sys2Proof.Proofs
end

section
/-!
PROOFS. The routines that may not complete (45_trap.md R211, R213 to R215, R218). GETC and IN are the link, a prompt or none, and the
console read, which ends with a byte or leaves the core waiting; a PUTS or PUTSP over a memory with no zero word is the link and the
string loop.
-/

namespace Sys2Proof.Proofs

open Sys2Proof.Machine Sys2Proof.Safety Sys2Proof.Laws

/-! ## The console read of GETC and IN -/

/-- The port events of a read that the byte b answers: IN echoes it and flushes (R214). -/
def readEvents (b : Byte) : ConsoleRead → List PortEvent
  | .getc => [.conRead b]
  | .inChar => [.conRead b, .conWrite b, .conFlush]

/-- The next state of GETC or IN, which has reported es in all, when the byte b answers its read: R7 is the saved PC, R0 the byte, and
COND its code. -/
def readDone (s : State) (es : List PortEvent) (b : Byte) : State :=
  (((s.link.setEnv s.conTaken).addEvents es).writeDest .r0 (zext8 b)).setActivity .idle

/-- The next state of GETC or IN, which has reported es before its read, when no byte answers it. -/
def readWaits (s : State) (es : List PortEvent) (who : ConsoleRead) : State :=
  ((s.link.setEnv s.conTaken).addEvents es).setActivity (.consoleWait who)

theorem finishRead_eq_readEvents (s : State) (who : ConsoleRead) (b : Byte) :
    s.finishRead who b = ((s.addEvents (readEvents b who)).writeDest .r0 (zext8 b)).setActivity .idle := by
  rw [finishRead_eq]
  cases who <;> rfl

theorem addEvents_addEvents (s : State) (es es' : List PortEvent) : (s.addEvents es).addEvents es' = s.addEvents (es ++ es') := by
  simp [State.addEvents]

section
variable {s : State}

theorem conReadFor_of_byte {b : Byte} (h : s.conAnswer = some b) (es : List PortEvent) (who : ConsoleRead) :
    (s.link.addEvents es).conReadFor who = readDone s (es ++ readEvents b who) b := by
  have answer : (s.link.addEvents es).conAnswer = some b := h
  rw [conReadFor_eq, answer, readDone, ← addEvents_addEvents]
  exact finishRead_eq_readEvents _ who b

theorem conReadFor_of_no_byte (h : s.conAnswer = none) (es : List PortEvent) (who : ConsoleRead) :
    (s.link.addEvents es).conReadFor who = readWaits s es who := by
  have answer : (s.link.addEvents es).conAnswer = none := h
  rw [conReadFor_eq, answer]
  rfl

end

theorem exec_getc (s : State) : exec .getc s = .next ((s.link.addEvents []).conReadFor .getc) := by
  rw [State.addEvents, List.append_nil]
  rfl

theorem exec_inChar (s : State) :
    exec .inChar s = .next ((s.link.addEvents (s.params.inPrompt.map .conWrite)).conReadFor .inChar) := rfl

/-- All that an answered read does. -/
theorem readDone_values_and_frame (s : State) (es : List PortEvent) (b : Byte) :
    (readDone s es b).reg .r0 = zext8 b ∧ (readDone s es b).cond = (if b = 0x00#8 then ZRO else POS) ∧
      (readDone s es b).reg .r7 = s.pc ∧ SameRegsBut [.r0, .r7] s (readDone s es b) ∧ (readDone s es b).pc = s.pc ∧
      SameMem s (readDone s es b) ∧ (readDone s es b).events = s.events ++ es ∧ (readDone s es b).env = s.conTaken ∧
      SameControl s (readDone s es b) ∧ (readDone s es b).activity = .idle := by
  refine ⟨?_, ?_, ?_, fun r hr => ?_, rfl, fun _ => rfl, rfl, rfl, ⟨rfl, rfl, rfl, rfl⟩, rfl⟩
  · simp [readDone]
  · simp [readDone, condOf_zext8]
  · simp [readDone, reg_writeDest]
  · obtain ⟨h0, h7⟩ : r ≠ .r0 ∧ r ≠ .r7 := by simpa using hr
    simp [readDone, reg_writeDest, h0, reg_link, h7]

/-- All that a read without an answer does. -/
theorem readWaits_values_and_frame (s : State) (es : List PortEvent) (who : ConsoleRead) :
    (readWaits s es who).activity = .consoleWait who ∧ (readWaits s es who).cond = s.cond ∧
      (readWaits s es who).reg .r7 = s.pc ∧ SameRegsBut [.r7] s (readWaits s es who) ∧ (readWaits s es who).pc = s.pc ∧
      SameMem s (readWaits s es who) ∧ (readWaits s es who).events = s.events ++ es ∧
      (readWaits s es who).env = s.conTaken ∧ SameControl s (readWaits s es who) :=
  ⟨rfl, rfl, reg_r7_link s, sameRegsBut_link s, rfl, fun _ => rfl, rfl, rfl, ⟨rfl, rfl, rfl, rfl⟩⟩

/-- Settles O52: GETC is the console read right after the link. -/
theorem getcReadsOneCharacter : Obligations.GetcReadsOneCharacter := by
  unfold Obligations.GetcReadsOneCharacter
  intro s
  rw [exec_getc]
  refine ⟨fun b hb => ?_, fun hnone => ?_⟩
  · rw [conReadFor_of_byte hb, List.nil_append, readEvents]
    exact ⟨_, rfl, readDone_values_and_frame s _ b⟩
  · rw [conReadFor_of_no_byte hnone]
    obtain ⟨hact, hcond, hr7, hregs, hpc, hmem, hevents, hrest⟩ := readWaits_values_and_frame s [] .getc
    exact ⟨_, rfl, hact, hcond, hr7, hregs, hpc, hmem, hevents.trans (List.append_nil _), hrest⟩

/-- Settles O55: IN is the prompt, then the console read with its echo. -/
theorem inPromptsReadsAndEchoes : Obligations.InPromptsReadsAndEchoes := by
  unfold Obligations.InPromptsReadsAndEchoes
  intro s
  rw [exec_inChar]
  refine ⟨fun b hb => ?_, fun hnone => ?_⟩
  · rw [conReadFor_of_byte hb, readEvents, List.append_assoc]
    exact ⟨_, rfl, readDone_values_and_frame s _ b⟩
  · rw [conReadFor_of_no_byte hnone]
    exact ⟨_, rfl, readWaits_values_and_frame s _ .inChar⟩

/-! ## Strings without end -/

/-- The next state of PUTS or PUTSP that never ends: in its loop, at the address in R0, with the link done. -/
def entersLoop (s : State) (kind : StringKind) : State := s.link.setActivity (.stringLoop kind (s.reg .r0))

/-- With no zero word in memory a string routine enters its loop (R218). -/
theorem link_writeString_of_unterminated {s : State} (h : ∀ a, s.rawRead a ≠ 0x0000#16) (kind : StringKind) :
    s.link.writeString kind = entersLoop s kind := by
  have none : stringWords s.link.mem (s.link.reg .r0) 65536 = none := stringWords_all_eq_none.2 h
  rw [writeString_eq, none]
  rfl

/-- With a zero word anywhere it writes some bytes and flushes (R213, R215). -/
theorem link_writeString_of_zero_word {s : State} (h : ∃ a, s.rawRead a = 0x0000#16) (kind : StringKind) :
    ∃ es, s.link.writeString kind = s.link.addEvents (es ++ [.conFlush]) := by
  have some : stringWords s.link.mem (s.link.reg .r0) 65536 ≠ none := by
    rw [Ne, stringWords_all_eq_none, not_forall_not]
    exact h
  obtain ⟨ws, hws⟩ := Option.ne_none_iff_exists'.1 some
  rw [writeString_eq, hws]
  exact ⟨_, rfl⟩

/-- All that the entry into the loop does. -/
theorem entersLoop_values_and_frame (s : State) (kind : StringKind) :
    (entersLoop s kind).activity = .stringLoop kind (s.reg .r0) ∧ (entersLoop s kind).reg .r7 = s.pc ∧
      SameRegsBut [.r7] s (entersLoop s kind) ∧ (entersLoop s kind).pc = s.pc ∧ (entersLoop s kind).cond = s.cond ∧
      (entersLoop s kind).mem = s.mem ∧ SamePorts s (entersLoop s kind) ∧ SameControl s (entersLoop s kind) :=
  ⟨rfl, reg_r7_link s, sameRegsBut_link s, rfl, rfl, rfl, ⟨rfl, rfl⟩, ⟨rfl, rfl, rfl, rfl⟩⟩

/-- A state whose step is itself stays for any number of steps. -/
theorem run_of_step_self {s : State} (h : step s = .next s) (k : Nat) : Host.Core.run Sys2Proof.core k s = .next s := by
  induction k with
  | zero => exact run_zero s
  | succ k ih => rw [run_succ h, ih]

theorem step_of_stringLoop {s : State} {kind : StringKind} {a : Word} (hr : s.run = .running)
    (ha : s.activity = .stringLoop kind a) : step s = .next s := by
  simp [step, hr, ha]

/-- One more turn of the loop shows the bytes of one more word. -/
theorem observed_succ {s : State} {kind : StringKind} {a : Word} (h : s.activity = .stringLoop kind a) (n : Nat) :
    s.observed (n + 1) =
      s.observed n ++ (stringBytes kind (s.rawRead (a + BitVec.ofNat 16 n))).map .conWrite := by
  rw [observed_of_stringLoop h, observed_of_stringLoop h, stringOutput_succ, List.map_append, List.append_assoc]
  rfl

theorem stringBytes_ne_nil (kind : StringKind) (w : Word) : stringBytes kind w ≠ [] := by
  cases kind with
  | puts => simp [stringBytes]
  | putsp =>
    rw [stringBytes]
    split <;> simp

/-- Every turn shows a byte at least, so the output has no end. -/
theorem length_observed {s : State} {kind : StringKind} {a : Word} (h : s.activity = .stringLoop kind a) (n : Nat) :
    s.events.length + n ≤ (s.observed n).length := by
  induction n with
  | zero => simp [observed_of_stringLoop h, stringOutput]
  | succ n ih =>
    have hpos := List.length_pos_iff.2 (stringBytes_ne_nil kind (s.rawRead (a + BitVec.ofNat 16 n)))
    rw [observed_succ h, List.length_append, List.length_map]
    omega

/-- Settles O59: whether memory holds a zero word decides between the loop and the flush; the loop's step is itself, and its output grows
turn by turn. -/
theorem stringWithoutTerminatorNeverEnds : Obligations.StringWithoutTerminatorNeverEnds := by
  unfold Obligations.StringWithoutTerminatorNeverEnds
  refine ⟨fun s hz => ?_, fun k s kind a hr ha => run_of_step_self (step_of_stringLoop hr ha) k,
    fun s kind a n ha => ⟨?_, ?_, length_observed ha n⟩, fun s hz => ?_⟩
  · rw [exec_puts, exec_putsp, link_writeString_of_unterminated hz, link_writeString_of_unterminated hz]
    exact ⟨⟨_, rfl, entersLoop_values_and_frame s .puts⟩, ⟨_, rfl, entersLoop_values_and_frame s .putsp⟩⟩
  · simp [observed_of_stringLoop ha, stringOutput]
  · rw [observed_succ ha]
    cases kind with
    | puts => rw [stringBytes_puts_events]
    | putsp => rw [stringBytes_putsp_events]
  · rw [exec_puts, exec_putsp]
    obtain ⟨es, he⟩ := link_writeString_of_zero_word hz .puts
    obtain ⟨es', he'⟩ := link_writeString_of_zero_word hz .putsp
    rw [he, he']
    exact ⟨⟨_, es, rfl, rfl, (List.append_assoc _ _ _).symm⟩, ⟨_, es', rfl, rfl, (List.append_assoc _ _ _).symm⟩⟩

end Sys2Proof.Proofs
end

section
/-!
PROOFS. Everything an instruction can do, said once. `Effect` lists the kinds of next state there are, each written with the operations of
Machine/Ops.lean and with what the tables of Safety.lean say about the instructions that end so. `exec_effect` sorts every instruction
into its kinds; what holds of all instructions is then read off kind by kind.
-/

namespace Sys2Proof.Proofs

open Sys2Proof.Machine Sys2Proof.Safety Sys2Proof.Laws

/-! ## The kinds -/

/-- The rows of the opcode table that run the trap routine of a vector: TRAP itself and the routine's own name (R210, R112). -/
def RunsVector (i : Instr) (v : BitVec 8) : Prop := i = .trap v ∨ i = decodeTrap v

/-- The run states in which an instruction may leave the core (R140, R240): as it was, or ended by the instruction's own doing. -/
inductive LeavesRun (i : Instr) (s : State) : RunState → Prop
  | same : LeavesRun i s s.run
  | halt (hi : RunsVector i 0x25#8) : LeavesRun i s (.halted .haltTrap)
  | res (hi : i = .res) : LeavesRun i s (.aborted .reservedOpcode)
  | rti (hi : i = .rti) : LeavesRun i s (.aborted .rtiOpcode)
  | undefined (v : BitVec 8) (hi : i = .trap v) (hv : isServiceVector v = false) (hp : s.params.undefinedTrapPolicy = .abort) :
    LeavesRun i s (.aborted (.undefinedTrap v))

/-- What an instruction makes of the state s. A load and a store may have read a pointer at p before; LD, LDR, ST and STR have not, which
is as good as a read of any cell but KBSR. The last four kinds are those of the trap routines. -/
inductive Effect (i : Instr) (s : State) : State → Prop
  | dest (dr : Reg) (v : Word) (hw : writesReg i dr = true) : Effect i s (s.writeDest dr v)
  | load (p : Word) (dr : Reg) (ea : Word) (hw : writesReg i dr = true) (hload : isLoad i = true) :
    Effect i s ((s.afterRead p).loadFrom dr ea)
  | store (p a : Word) (r : Reg) (ht : storeTarget s i = some (a, r)) : Effect i s ((s.afterRead p).memWrite a (s.reg r))
  | jump (target : Word) (hpc : writesPc i = true) : Effect i s (s.setPc target)
  | call (target : Word) (hpc : writesPc i = true) (h7 : writesReg i .r7 = true) : Effect i s (s.link.setPc target)
  | stop (r : RunState) (hr : LeavesRun i s r) : Effect i s (s.setRun r)
  | output (es : List PortEvent) (r : RunState) (h7 : writesReg i .r7 = true) (hr : LeavesRun i s r) :
    Effect i s ((s.link.addEvents es).setRun r)
  | endless (kind : StringKind) (h7 : writesReg i .r7 = true) (hz : ∀ b, s.rawRead b ≠ 0x0000#16) :
    Effect i s (entersLoop s kind)
  | byte (es : List PortEvent) (b : Byte) (h0 : writesReg i .r0 = true) (h7 : writesReg i .r7 = true) :
    Effect i s (readDone s es b)
  | wait (es : List PortEvent) (who : ConsoleRead) (h7 : writesReg i .r7 = true) (hi : readsConsole i = true)
    (hc : s.conAnswer = none) : Effect i s (readWaits s es who)

/-! ## The trap routines -/

section
variable {i : Instr} (s : State)

theorem effect_conReadFor (es : List PortEvent) (who : ConsoleRead) (h0 : writesReg i .r0 = true) (h7 : writesReg i .r7 = true)
    (hi : readsConsole i = true) : Effect i s ((s.link.addEvents es).conReadFor who) := by
  cases hc : s.conAnswer with
  | some b =>
    rw [conReadFor_of_byte hc]
    exact .byte _ b h0 h7
  | none =>
    rw [conReadFor_of_no_byte hc]
    exact .wait es who h7 hi hc

theorem effect_writeString (kind : StringKind) (h7 : writesReg i .r7 = true) : Effect i s (s.link.writeString kind) := by
  by_cases hz : ∀ a, s.rawRead a ≠ 0x0000#16
  · rw [link_writeString_of_unterminated hz]
    exact .endless kind h7 hz
  · obtain ⟨es, e⟩ := link_writeString_of_zero_word (not_forall_not.1 hz) kind
    rw [e]
    exact .output _ s.run h7 .same

theorem effect_undefinedTrap {v : BitVec 8} (hi : i = .trap v) (hv : isServiceVector v = false) :
    Effect i s (s.link.undefinedTrap v) := by
  have h7 : writesReg i .r7 = true := hi ▸ rfl
  have e : s.link.undefinedTrap v =
      (s.link.addEvents []).setRun (if s.params.undefinedTrapPolicy = .abort then .aborted (.undefinedTrap v) else s.run) := by
    rw [undefinedTrap_eq, State.addEvents, List.append_nil]
    rfl
  rw [e]
  split
  next hp => exact .output [] _ h7 (.undefined v hi hv hp)
  next => exact .output [] _ h7 .same

theorem decodeTrap_of_not_service {v : BitVec 8} (h : isServiceVector v = false) : decodeTrap v = .trap v :=
  decodeTrap_of_wellFormed (by simp [WellFormed, h])

theorem writesReg_r7_of_runsVector {v : BitVec 8} (h : RunsVector i v) : writesReg i .r7 = true := by
  obtain rfl | rfl := h
  · rfl
  · unfold decodeTrap
    split_ifs <;> rfl

/-- The routine a vector selects, after the link, under either name of its row. -/
theorem effect_dispatchTrap {v : BitVec 8} (h : RunsVector i v) : Effect i s (s.link.dispatchTrap v) := by
  have h7 := writesReg_r7_of_runsVector h
  obtain ⟨rfl, e⟩ | ⟨rfl, e⟩ | ⟨-, e⟩ | ⟨rfl, e⟩ | ⟨-, e⟩ | ⟨rfl, e⟩ | ⟨hv, e⟩ := dispatchTrap_cases s.link v <;> rw [e]
  · have noPrompt : s.link = s.link.addEvents [] := by rw [State.addEvents, List.append_nil]
    rw [noPrompt]
    obtain rfl | rfl := h <;> exact effect_conReadFor s [] .getc rfl rfl rfl
  · rw [State.outRoutine, conWrite_conFlush_eq]
    exact .output _ s.run h7 .same
  · exact effect_writeString s .puts h7
  · obtain rfl | rfl := h <;> exact effect_conReadFor s (s.params.inPrompt.map .conWrite) .inChar rfl rfl rfl
  · exact effect_writeString s .putsp h7
  · rw [State.haltRoutine, conWrite_conFlush_eq]
    exact .output _ _ h7 (.halt h)
  · exact effect_undefinedTrap s (h.elim id fun hi => hi.trans (decodeTrap_of_not_service hv)) hv

end

/-! ## All instructions -/

theorem afterRead_zero (s : State) : s.afterRead 0x0000#16 = s := afterRead_of_ne (by decide) s

/-- Every instruction completes, with the effect of one of its kinds (R144). -/
theorem exec_effect (i : Instr) (s : State) : ∃ t, exec i s = .next t ∧ Effect i s t := by
  have noPointer := afterRead_zero s
  cases i with
  | addReg dr | addImm dr | andReg dr | andImm dr | not dr | lea dr => exact ⟨_, rfl, .dest dr _ (beq_self_eq_true dr)⟩
  | ld dr | ldr dr => exact ⟨_, rfl, noPointer ▸ .load 0x0000#16 dr _ (beq_self_eq_true dr) rfl⟩
  | ldi dr => exact ⟨_, rfl, .load _ dr _ (beq_self_eq_true dr) rfl⟩
  | st sr | str sr => exact ⟨_, rfl, noPointer ▸ .store 0x0000#16 _ sr rfl⟩
  | sti sr => exact ⟨_, rfl, .store _ _ sr rfl⟩
  | br n z p off9 => exact ⟨_, exec_br n z p off9 s, .jump _ rfl⟩
  | jmp | ret => exact ⟨_, rfl, .jump _ rfl⟩
  | jsr | jsrr => exact ⟨_, rfl, .call _ rfl rfl⟩
  | rti => exact ⟨_, rfl, .stop _ (.rti rfl)⟩
  | res => exact ⟨_, rfl, .stop _ (.res rfl)⟩
  | trap v => exact ⟨_, rfl, effect_dispatchTrap s (.inl rfl)⟩
  | getc => exact ⟨_, rfl, effect_dispatchTrap (v := 0x20#8) s (.inr rfl)⟩
  | out => exact ⟨_, rfl, effect_dispatchTrap (v := 0x21#8) s (.inr rfl)⟩
  | puts => exact ⟨_, rfl, effect_dispatchTrap (v := 0x22#8) s (.inr rfl)⟩
  | inChar => exact ⟨_, rfl, effect_dispatchTrap (v := 0x23#8) s (.inr rfl)⟩
  | putsp => exact ⟨_, rfl, effect_dispatchTrap (v := 0x24#8) s (.inr rfl)⟩
  | halt => exact ⟨_, rfl, effect_dispatchTrap (v := 0x25#8) s (.inr rfl)⟩

theorem effect_of_exec {i : Instr} {s t : State} (h : exec i s = .next t) : Effect i s t := by
  obtain ⟨u, hu, effect⟩ := exec_effect i s
  obtain rfl := Host.Outcome.next.inj (h.symm.trans hu)
  exact effect

end Sys2Proof.Proofs
end

section
/-!
PROOFS. Who writes registers, PC and memory (10_state.md R43, R44, 20_memory.md R76, R219), read off the kinds of `Effect`; and that BR
alone reads COND (10_state.md R46), because every other operation passes an update of COND through or overwrites it.
-/

namespace Sys2Proof.Proofs

open Sys2Proof.Machine Sys2Proof.Safety Sys2Proof.Laws

/-! ## Registers and PC -/

section
variable {i : Instr} {s t : State}

theorem ne_of_writesReg {r q : Reg} (hr : writesReg i r = false) (hq : writesReg i q = true) : r ≠ q := by
  rintro rfl
  exact Bool.false_ne_true (hr.symm.trans hq)

theorem Effect.reg_of_not_written {r : Reg} (h : Effect i s t) (hr : writesReg i r = false) : t.reg r = s.reg r := by
  cases h with
  | dest dr v hw => rw [reg_writeDest, if_neg (ne_of_writesReg hr hw)]
  | load p dr ea hw => rw [loadFrom_eq, reg_writeDest, if_neg (ne_of_writesReg hr hw), reg_afterRead, reg_afterRead]
  | store p a q => rw [reg_memWrite, reg_afterRead]
  | jump target => rw [reg_setPc]
  | call target _ h7 => rw [reg_setPc, reg_link, if_neg (ne_of_writesReg hr h7)]
  | stop r' => rw [reg_setRun]
  | output es r' h7 => rw [reg_setRun, reg_addEvents, reg_link, if_neg (ne_of_writesReg hr h7)]
  | endless kind h7 =>
    obtain ⟨-, -, hregs, -⟩ := entersLoop_values_and_frame s kind
    exact hregs r (by simp [ne_of_writesReg hr h7])
  | byte es b h0 h7 =>
    obtain ⟨-, -, -, hregs, -⟩ := readDone_values_and_frame s es b
    exact hregs r (by simp [ne_of_writesReg hr h0, ne_of_writesReg hr h7])
  | wait es who h7 =>
    obtain ⟨-, -, -, hregs, -⟩ := readWaits_values_and_frame s es who
    exact hregs r (by simp [ne_of_writesReg hr h7])

theorem Effect.pc_of_not_written (h : Effect i s t) (hi : writesPc i = false) : t.pc = s.pc := by
  cases h with
  | dest | stop | output | endless | byte | wait => rfl
  | load p dr ea => rw [loadFrom_pc, afterRead_pc]
  | store p a r => rw [memWrite_pc, afterRead_pc]
  | jump target hpc | call target hpc => exact absurd (hi.symm.trans hpc) Bool.false_ne_true

end

/-- Settles O31: `Effect.reg_of_not_written`. -/
theorem onlyListedRegistersAreWritten : Obligations.OnlyListedRegistersAreWritten := by
  unfold Obligations.OnlyListedRegistersAreWritten
  exact fun i s t h r hr => (effect_of_exec h).reg_of_not_written hr

/-- Settles O32: `Effect.pc_of_not_written`. -/
theorem onlyControlTransfersWritePc : Obligations.OnlyControlTransfersWritePc := by
  unfold Obligations.OnlyControlTransfersWritePc
  exact fun i s t h hi => (effect_of_exec h).pc_of_not_written hi

/-! ## Events and memory -/

/-- From s to t events are only appended, and only these cells may change: KBSR, the cells of P, and KBDR if one of the new events consumes
a key. -/
def WritesOnly (P : Word → Prop) (s t : State) : Prop :=
  ∃ es, t.events = s.events ++ es ∧
    ∀ a, a ≠ KBSR → ¬P a → (a = KBDR → ∀ c, PortEvent.kbdConsume c ∉ es) → t.rawRead a = s.rawRead a

section
variable {P : Word → Prop} {s t u : State}

theorem writesOnly_of_sameMem {es : List PortEvent} (he : t.events = s.events ++ es) (hm : SameMem s t) : WritesOnly P s t :=
  ⟨es, he, fun a _ _ _ => hm a⟩

theorem WritesOnly.trans (h : WritesOnly P s t) (h' : WritesOnly P t u) : WritesOnly P s u := by
  obtain ⟨es, he, hcells⟩ := h
  obtain ⟨es', he', hcells'⟩ := h'
  refine ⟨es ++ es', by rw [he', he, List.append_assoc], fun a hs hp hd => ?_⟩
  rw [hcells' a hs hp fun e c hc => hd e c (List.mem_append_right es hc),
    hcells a hs hp fun e c hc => hd e c (List.mem_append_left es' hc)]

theorem WritesOnly.trans_sameMem (h : WritesOnly P s t) (hm : SameMem t u) (he : u.events = t.events) : WritesOnly P s u :=
  h.trans (writesOnly_of_sameMem (es := []) (by rw [he, List.append_nil]) hm)

/-- A read may change KBDR by the poll that consumes a key, and then it reports that event. -/
theorem writesOnly_afterRead (s : State) (p : Word) : WritesOnly P s (s.afterRead p) := by
  by_cases hp : p = KBSR
  · rw [hp, afterRead_kbsr]
    have poll := pollEffect_pollKeyboard s
    unfold PollEffect at poll
    cases hk : s.kbdAnswer with
    | some c =>
      rw [hk] at poll
      obtain ⟨-, -, hcells, hevents, -⟩ := poll
      exact ⟨_, hevents, fun a hs _ hd => hcells a hs fun e => hd e c (by simp)⟩
    | none =>
      rw [hk] at poll
      obtain ⟨-, hcells, hevents, -⟩ := poll
      exact ⟨_, hevents, fun a hs _ _ => hcells a hs⟩
  · rw [afterRead_of_ne hp]
    exact writesOnly_of_sameMem (es := []) (List.append_nil _).symm fun _ => rfl

theorem writesOnly_memWrite (s : State) {a : Word} (v : Word) (ha : P a) : WritesOnly P s (s.memWrite a v) :=
  ⟨[], (List.append_nil _).symm, fun b _ hb _ =>
    rawRead_memWrite_of_ne (by rintro rfl; exact hb ha) s v⟩

end

section
variable {i : Instr} {s t : State}

/-- An instruction writes the cell it stores to, if it stores, and what its reads write. -/
theorem Effect.writesOnly (h : Effect i s t) : WritesOnly (fun a => ∃ r, storeTarget s i = some (a, r)) s t := by
  cases h with
  | dest | jump | call | stop | endless => exact writesOnly_of_sameMem (es := []) (List.append_nil _).symm fun _ => rfl
  | load p dr ea =>
    exact ((writesOnly_afterRead s p).trans (writesOnly_afterRead _ ea)).trans_sameMem (sameMem_writeDest _ dr _) rfl
  | store p a r ht => exact (writesOnly_afterRead s p).trans (writesOnly_memWrite _ _ ⟨r, ht⟩)
  | output es | byte es | wait es => exact writesOnly_of_sameMem (es := es) rfl fun _ => rfl

theorem storeTarget_of_not_isStore (s : State) (hi : isStore i = false) : storeTarget s i = none := by
  cases i with
  | st | sti | str => cases hi
  | _ => rfl

theorem isStore_of_storeTarget {a : Word} {r : Reg} (h : storeTarget s i = some (a, r)) : isStore i = true := by
  by_contra hn
  rw [storeTarget_of_not_isStore s (Bool.eq_false_of_not_eq_true hn)] at h
  cases h

theorem Effect.mem_of_no_access (h : Effect i s t) (hstore : isStore i = false) (hload : isLoad i = false) : t.mem = s.mem := by
  cases h with
  | dest | jump | call | stop | output | endless | byte | wait => rfl
  | load p dr ea hw hl => exact absurd (hload.symm.trans hl) Bool.false_ne_true
  | store p a r ht => exact absurd (hstore.symm.trans (isStore_of_storeTarget ht)) Bool.false_ne_true

end

/-- Settles O33: `Effect.writesOnly`, where no cell is stored to, and `Effect.mem_of_no_access`. -/
theorem onlyStoresAndPollsWriteMemory : Obligations.OnlyStoresAndPollsWriteMemory := by
  unfold Obligations.OnlyStoresAndPollsWriteMemory
  intro i s t h hstore
  have effect := effect_of_exec h
  obtain ⟨es, -, hcells⟩ := effect.writesOnly
  refine ⟨fun a hs hd => hcells a hs ?_ fun e => absurd e hd, effect.mem_of_no_access hstore⟩
  simp [storeTarget_of_not_isStore s hstore]

/-! ## COND -/

section
variable (s : State) (c : Word)

theorem writeDest_setCond (r : Reg) (v : Word) : (s.setCond c).writeDest r v = s.writeDest r v := rfl

theorem pollKeyboard_setCond : (s.setCond c).pollKeyboard = s.pollKeyboard.setCond c := by
  have answer : (s.setCond c).kbdAnswer = s.kbdAnswer := rfl
  cases h : s.kbdAnswer with
  | some k =>
    rw [pollKeyboard_of_key h, pollKeyboard_of_key (answer.trans h)]
    rfl
  | none =>
    rw [pollKeyboard_of_no_key h, pollKeyboard_of_no_key (answer.trans h)]
    rfl

theorem afterRead_setCond (a : Word) : (s.setCond c).afterRead a = (s.afterRead a).setCond c := by
  by_cases h : a = KBSR
  · rw [h, afterRead_kbsr, afterRead_kbsr, pollKeyboard_setCond]
  · rw [afterRead_of_ne h, afterRead_of_ne h]

theorem memRead_setCond (a : Word) : (s.setCond c).memRead a = s.memRead a := by
  rw [memRead_eq, afterRead_setCond, rawRead_setCond, memRead_eq]

theorem loadFrom_setCond (dr : Reg) (ea : Word) : (s.setCond c).loadFrom dr ea = s.loadFrom dr ea := by
  rw [loadFrom_eq, afterRead_setCond, memRead_setCond, writeDest_setCond, loadFrom_eq]

theorem writeString_setCond (kind : StringKind) : (s.setCond c).writeString kind = (s.writeString kind).setCond c := by
  rw [writeString_eq, writeString_eq, setCond_mem, reg_setCond]
  cases stringWords s.mem (s.reg .r0) 65536 <;> rfl

theorem conReadFor_setCond (who : ConsoleRead) :
    (s.setCond c).conReadFor who = if s.conAnswer.isSome then s.conReadFor who else (s.conReadFor who).setCond c := by
  have answer : (s.setCond c).conAnswer = s.conAnswer := rfl
  rw [conReadFor_eq, conReadFor_eq, answer]
  cases s.conAnswer with
  | some b => cases who <;> rfl
  | none => rfl

end

/-- u is t but for COND; it has t's COND, or t has that of s and u has c: what the next states of one instruction from s and from s with
COND c have in common when it does not read COND. -/
def CondBlind (s : State) (c : Word) (t u : State) : Prop :=
  ∃ d, u = t.setCond d ∧ (d = t.cond ∨ (t.cond = s.cond ∧ d = c))

section
variable {s t u : State} {c : Word}

theorem condBlind_of_eq (h : u = t) : CondBlind s c t u := ⟨t.cond, h, .inl rfl⟩

theorem condBlind_of_kept (hu : u = t.setCond c) (ht : t.cond = s.cond) : CondBlind s c t u := ⟨c, hu, .inr ⟨ht, rfl⟩⟩

theorem condBlind_writeString (kind : StringKind) : CondBlind s c (s.writeString kind) ((s.setCond c).writeString kind) :=
  condBlind_of_kept (writeString_setCond s c kind) (writeString_cond s kind)

theorem condBlind_conReadFor (who : ConsoleRead) : CondBlind s c (s.conReadFor who) ((s.setCond c).conReadFor who) := by
  rw [conReadFor_setCond]
  cases h : s.conAnswer with
  | some b => exact condBlind_of_eq rfl
  | none => exact condBlind_of_kept rfl (by rw [conReadFor_cond, h])

theorem condBlind_dispatchTrap (v : BitVec 8) : CondBlind s c (s.dispatchTrap v) ((s.setCond c).dispatchTrap v) := by
  unfold State.dispatchTrap
  split_ifs
  · exact condBlind_conReadFor .getc
  · exact condBlind_of_kept rfl rfl
  · exact condBlind_writeString .puts
  · exact condBlind_conReadFor (s := s.conWrite s.params.inPrompt) .inChar
  · exact condBlind_writeString .putsp
  · exact condBlind_of_kept rfl rfl
  · refine condBlind_of_kept ?_ (undefinedTrap_cond s v)
    rw [undefinedTrap_eq, undefinedTrap_eq]
    rfl

end

theorem exec_condBlind {i : Instr} (hi : ∀ n z p off9, i ≠ .br n z p off9) (s : State) (c : Word) :
    ∃ t u, exec i s = .next t ∧ exec i (s.setCond c) = .next u ∧ CondBlind s c t u := by
  cases i with
  | br n z p off9 => exact absurd rfl (hi n z p off9)
  | addReg | addImm | andReg | andImm | not | lea => exact ⟨_, _, rfl, rfl, condBlind_of_eq rfl⟩
  | ld | ldr => exact ⟨_, _, rfl, rfl, condBlind_of_eq (loadFrom_setCond s c _ _)⟩
  | ldi dr off9 =>
    refine ⟨_, _, exec_ldi dr off9 s, exec_ldi dr off9 _, condBlind_of_eq ?_⟩
    rw [setCond_pc, afterRead_setCond, memRead_setCond, loadFrom_setCond]
  | st | str | jmp | ret | jsr | jsrr | rti | res | out | halt => exact ⟨_, _, rfl, rfl, condBlind_of_kept rfl rfl⟩
  | sti sr off9 =>
    refine ⟨_, _, exec_sti sr off9 s, exec_sti sr off9 _, condBlind_of_kept ?_ (afterRead_cond s _)⟩
    rw [setCond_pc, afterRead_setCond, memRead_setCond]
    rfl
  | trap v => exact ⟨_, _, rfl, rfl, condBlind_dispatchTrap (s := s.link) v⟩
  | getc => exact ⟨_, _, rfl, rfl, condBlind_conReadFor (s := s.link) .getc⟩
  | inChar => exact ⟨_, _, rfl, rfl, condBlind_conReadFor (s := s.link.conWrite s.params.inPrompt) .inChar⟩
  | puts => exact ⟨_, _, rfl, rfl, condBlind_writeString (s := s.link) .puts⟩
  | putsp => exact ⟨_, _, rfl, rfl, condBlind_writeString (s := s.link) .putsp⟩

/-- Settles O30: `exec_condBlind`. -/
theorem onlyBranchesReadCond : Obligations.OnlyBranchesReadCond := by
  unfold Obligations.OnlyBranchesReadCond
  intro i s c hi
  obtain ⟨t, u, ht, hu, d, rfl, hd⟩ := exec_condBlind hi s c
  exact ⟨t, d, ht, hu, hd⟩

end Sys2Proof.Proofs
end

section
/-!
PROOFS. Everything a step can do (40_execution_cycle.md R141, R150 to R153): nothing, the end of the run by a pending cancellation, or
the fetch, one of the kinds of `Effect`, and the arrival of a cancellation. What a step reports and writes follows.
-/

namespace Sys2Proof.Proofs

open Sys2Proof.Machine Sys2Proof.Safety Sys2Proof.Laws

/-! ## The step, inverted -/

theorem step_effect {s t : State} (h : step s = .next t) :
    ((s.run ≠ .running ∨ s.activity ≠ .idle) ∧ t = s) ∨
    (s.run = .running ∧ s.cancelPending = true ∧ (s.activity = .idle ∨ ∃ who, s.activity = .consoleWait who) ∧
      t = s.haltByCancel) ∨
    (AtBoundary s ∧ ∃ u, Effect (decode s.fetch.ir) s.fetch u ∧ t = u.cancelArrives) := by
  obtain ⟨hr, e⟩ | ⟨hr, hc, ha, e⟩ | ⟨hr, hc, ha, e⟩ | ⟨-, -, ⟨who, ha⟩, e⟩ | ⟨-, ⟨kind, a, ha⟩, e⟩ := step_cases s
  · exact .inl ⟨.inl hr, Host.Outcome.next.inj (h.symm.trans e)⟩
  · exact .inr (.inl ⟨hr, hc, ha, Host.Outcome.next.inj (h.symm.trans e)⟩)
  · obtain ⟨u, hu, rfl⟩ := next_of_afterTransition (e.symm.trans h)
    exact .inr (.inr ⟨⟨hr, ha, hc⟩, u, effect_of_exec hu, rfl⟩)
  · exact .inl ⟨.inr (by simp [ha]), Host.Outcome.next.inj (h.symm.trans e)⟩
  · exact .inl ⟨.inr (by simp [ha]), Host.Outcome.next.inj (h.symm.trans e)⟩

theorem step_of_ended {s : State} (h : s.run ≠ .running) : step s = .next s := by
  obtain ⟨-, e⟩ | ⟨hr, -⟩ | ⟨hr, -⟩ | ⟨hr, -⟩ | ⟨hr, -⟩ := step_cases s
  · exact e
  all_goals exact absurd hr h

theorem step_of_cancelPending {s : State} (hr : s.run = .running) (hc : s.cancelPending = true)
    (ha : s.activity = .idle ∨ ∃ who, s.activity = .consoleWait who) : step s = .next s.haltByCancel := by
  obtain ha | ⟨who, ha⟩ := ha <;> simp [step, hr, hc, ha]

theorem step_of_consoleWait {s : State} {who : ConsoleRead} (hr : s.run = .running) (ha : s.activity = .consoleWait who)
    (hc : s.cancelPending = false) : step s = .next s := by
  simp [step, hr, ha, hc]

/-- A step is never refused and never faults (R144, R242). -/
theorem step_next (s : State) : ∃ t, step s = .next t := by
  obtain ⟨-, e⟩ | ⟨-, -, -, e⟩ | ⟨-, -, -, e⟩ | ⟨-, -, -, e⟩ | ⟨-, -, e⟩ := step_cases s
  case inr.inr.inl =>
    obtain ⟨u, hu, -⟩ := exec_effect (decode s.fetch.ir) s.fetch
    exact ⟨_, by rw [e, hu, afterTransition_next]⟩
  all_goals exact ⟨_, e⟩

/-! ## The fetch -/

theorem fetch_of_ne {s : State} (h : s.pc ≠ KBSR) : s.fetch = (s.setIr (s.rawRead s.pc)).setPc (s.pc + 1#16) := by
  rw [State.fetch, afterRead_of_ne h, memRead_of_ne h]

theorem fetch_ir_setPc {a : Word} (h : a ≠ KBSR) (s : State) : (s.setPc a).fetch.ir = s.rawRead a := by
  rw [fetch_ir, setPc_pc, memRead_of_ne h, rawRead_setPc]

theorem writesOnly_fetch {P : Word → Prop} (s : State) : WritesOnly P s s.fetch :=
  (writesOnly_afterRead s s.pc).trans_sameMem (fun _ => rfl) rfl

theorem fetch_cancelIn (s : State) : s.fetch.env.cancelIn = s.env.cancelIn := by
  obtain ⟨-, -, e⟩ := afterRead_env s s.pc
  exact e

/-- The zero word is a branch that is never taken, which changes nothing (R200, R275). -/
theorem exec_zero_word {w : Word} (hw : w = 0x0000#16) (s : State) : exec (decode w) s = .next s := by
  have never : decode 0x0000#16 = .br false false false 0#9 := by decide
  rw [hw, never, exec_br]
  rfl

/-! ## What no instruction and no step changes -/

section
variable {i : Instr} {s t : State}

theorem Effect.params_eq (h : Effect i s t) : t.params = s.params := by
  cases h with
  | dest | jump | call | stop | output | endless | byte | wait => rfl
  | load p dr ea => rw [loadFrom_eq, writeDest_params, afterRead_params, afterRead_params]
  | store p a r => rw [memWrite_eq, setMem_params, afterRead_params]

/-- An instruction may take answers of the environment, but not the cancellation that is on its way. -/
theorem Effect.cancelIn_eq (h : Effect i s t) : t.env.cancelIn = s.env.cancelIn := by
  have afterRead_cancelIn (u : State) (p : Word) : (u.afterRead p).env.cancelIn = u.env.cancelIn := by
    obtain ⟨-, -, e⟩ := afterRead_env u p
    exact e
  cases h with
  | dest | jump | call | stop | output | endless => rfl
  | load p dr ea => rw [loadFrom_eq, writeDest_env, afterRead_cancelIn, afterRead_cancelIn]
  | store p a r => rw [memWrite_eq, setMem_env, afterRead_cancelIn]
  | byte | wait => exact conTaken_cancelIn s

/-- A step writes the cell its instruction stores to, if it stores, and what its reads write. -/
theorem step_writesOnly (h : step s = .next t) :
    WritesOnly (fun a => ∃ r, storeTarget s.fetch (decode s.fetch.ir) = some (a, r)) s t := by
  obtain ⟨-, rfl⟩ | ⟨-, -, -, rfl⟩ | ⟨-, u, effect, rfl⟩ := step_effect h
  · exact writesOnly_of_sameMem (es := []) (List.append_nil _).symm fun _ => rfl
  · exact writesOnly_of_sameMem (es := []) (List.append_nil _).symm fun _ => rfl
  · exact ((writesOnly_fetch s).trans effect.writesOnly).trans_sameMem (rawRead_cancelArrives u) (cancelArrives_events u)

theorem step_params (h : step s = .next t) : t.params = s.params := by
  obtain ⟨-, rfl⟩ | ⟨-, -, -, rfl⟩ | ⟨-, u, effect, rfl⟩ := step_effect h
  · rfl
  · rfl
  · rw [cancelArrives_params, effect.params_eq, fetch_params]

end

/-- Settles O18: `step_writesOnly` says what the events become, `step_params` that the parameters stay. -/
theorem portHistoryOnlyGrows : Obligations.PortHistoryOnlyGrows := by
  unfold Obligations.PortHistoryOnlyGrows
  intro s t h
  obtain ⟨es, hes, -⟩ := step_writesOnly h
  exact ⟨⟨es, hes⟩, step_params h⟩

/-! ## The step at a boundary -/

theorem setActivity_self {s : State} {a : Activity} (h : s.activity = a) : s.setActivity a = s := by
  rw [← h]
  rfl

theorem cancelArrives_of_later {s : State} {k : Nat} (h : s.env.cancelIn = some (k + 1)) :
    s.cancelArrives = s.setEnv { s.env with cancelIn := some k } := by
  simp [State.cancelArrives, h]

theorem cancelArrives_of_now {s : State} (h : s.env.cancelIn = some 0) :
    s.cancelArrives = hostCancel (s.setEnv { s.env with cancelIn := none }) := by
  simp [State.cancelArrives, h]

/-- Settles O19: the step at a boundary by `step_of_atBoundary` or `step_of_cancelPending`, the arrival by its three cases. -/
theorem stepRunsTheDecodedInstruction : Obligations.StepRunsTheDecodedInstruction := by
  unfold Obligations.StepRunsTheDecodedInstruction
  refine ⟨fun s w i h hw hi => ?_, fun s hr ha hc => ?_, fun u => ⟨fun h => ?_, fun k h => ?_, fun h => ?_⟩⟩
  · rw [step_of_atBoundary h, fetch_ir, hw, hi, State.fetch, hw]
  · rw [step_of_cancelPending hr hc (.inl ha), State.haltByCancel, setActivity_self ((setRun_activity s _).trans ha)]
  · rw [afterTransition_next, cancelArrives_of_none h]
  · rw [afterTransition_next, cancelArrives_of_later h]
  · rw [afterTransition_next, cancelArrives_of_now h]

/-- Where an instruction leaves the core at a boundary, the arrival of a cancellation after it shows in nothing but the flag and the
environment. -/
theorem step_of_exec_idle {s u : State} (h : AtBoundary s) (e : exec (decode s.fetch.ir) s.fetch = .next u)
    (hidle : u.activity = .idle) :
    ∃ t, step s = .next t ∧ t.ir = u.ir ∧ t.run = u.run ∧ t.pc = u.pc ∧ SameMem u t ∧ SameRegsBut [] u t ∧ t.cond = u.cond :=
  ⟨_, step_of_exec h e, cancelArrives_ir u, cancelArrives_run (by simp [hidle]), cancelArrives_pc u, rawRead_cancelArrives u,
    fun r _ => reg_cancelArrives u r, cancelArrives_cond u⟩

/-- Settles O20: the poll of the fetch decides between the word of RTI and the zero word. -/
theorem fetchAtKbsrPolls : Obligations.FetchAtKbsrPolls := by
  unfold Obligations.FetchAtKbsrPolls
  intro s h hpc
  have hir : s.fetch.ir = if s.kbdAnswer.isSome then 0x8000#16 else 0x0000#16 := by rw [fetch_ir, hpc, memRead_kbsr]
  have hnext : s.fetch.pc = 0xFE01#16 := by rw [fetch_pc, hpc]; rfl
  have hcell (a : Word) : s.fetch.rawRead a = s.pollKeyboard.rawRead a := by rw [rawRead_fetch, hpc, afterRead_kbsr]
  have poll := pollEffect_pollKeyboard s
  unfold PollEffect at poll
  obtain ⟨hrun, hidle, -⟩ := id h
  refine ⟨fun c hc => ?_, fun hc => ?_⟩
  · rw [hc] at hir poll
    obtain ⟨hkbsr, hkbdr, -⟩ := poll
    rw [Option.isSome_some, if_pos rfl] at hir
    have rti : decode s.fetch.ir = .rti := by rw [hir]; decide
    obtain ⟨t, hstep, tir, trun, tpc, tmem, tregs, tcond⟩ :=
      step_of_exec_idle (u := s.fetch.abort .rtiOpcode) h (rti ▸ exec_rti s.fetch) ((fetch_activity s).trans hidle)
    exact ⟨t, hstep, tir.trans hir, trun, tpc.trans hnext, (tmem KBSR).trans ((hcell KBSR).trans hkbsr),
      (tmem KBDR).trans ((hcell KBDR).trans hkbdr), fun r hr => (tregs r hr).trans (reg_fetch s r),
      tcond.trans (fetch_cond s)⟩
  · rw [hc] at hir poll
    obtain ⟨hkbsr, hcells, -⟩ := poll
    obtain ⟨t, hstep, tir, trun, tpc, tmem, tregs, tcond⟩ :=
      step_of_exec_idle h (exec_zero_word hir s.fetch) ((fetch_activity s).trans hidle)
    exact ⟨t, hstep, tir.trans hir, trun.trans ((fetch_run s).trans hrun), tpc.trans hnext,
      (tmem KBSR).trans ((hcell KBSR).trans hkbsr), (tmem KBDR).trans ((hcell KBDR).trans (hcells KBDR kbdr_ne_kbsr)),
      fun r hr => (tregs r hr).trans (reg_fetch s r), tcond.trans (fetch_cond s)⟩

end Sys2Proof.Proofs
end

section
/-!
PROOFS. Runs: the states a run stays in (40_execution_cycle.md R150, R151, 10_state.md R50), the slide over unloaded memory
(70_reset_and_hazards.md R275), and what a later fetch sees of a store (20_memory.md R87).
-/

namespace Sys2Proof.Proofs

open Sys2Proof.Machine Sys2Proof.Safety Sys2Proof.Laws

/-! ## Runs that stay -/

/-- Settles O22: an ended run's step is itself. -/
theorem finalStatesTakeNoStep : Obligations.FinalStatesTakeNoStep := by
  unfold Obligations.FinalStatesTakeNoStep
  exact fun s h => run_of_step_self (step_of_ended h)

/-- Settles O24: a wait's step is itself. -/
theorem consoleWaitChangesNothing : Obligations.ConsoleWaitChangesNothing := by
  unfold Obligations.ConsoleWaitChangesNothing
  exact fun s who hr ha hc => run_of_step_self (step_of_consoleWait hr ha hc)

/-- Settles O25: the run stays in the wait (O24), and there the byte is `finishRead`. -/
theorem consoleWaitEndsWithTheByte : Obligations.ConsoleWaitEndsWithTheByte := by
  unfold Obligations.ConsoleWaitEndsWithTheByte
  intro k s who b hr ha hc
  refine ⟨s, consoleWaitChangesNothing s who hr ha hc k, ?_⟩
  rw [hostByte_of_waiting hr ha, finishRead_eq_readEvents]
  refine ⟨⟨hr, rfl, hc⟩, reg_writeDest_self _ .r0 _, flagsOf_condOf _, ?_, rfl, rfl, rfl, rfl, rfl, ?_⟩
  · exact sameRegsBut_writeDest (s.addEvents (readEvents b who)) .r0 _
  · cases who <;> rfl

/-! ## The slide -/

/-- One step of the slide: pc moves on and the fetched word is kept in ir. -/
theorem step_of_zero_cell {s : State} (h : AtBoundary s) (hcancel : s.env.cancelIn = none) (hpc : s.pc ≠ KBSR)
    (hzero : s.rawRead s.pc = 0x0000#16) : step s = .next ((s.setIr 0x0000#16).setPc (s.pc + 1#16)) := by
  have hfetch := fetch_of_ne hpc
  rw [hzero] at hfetch
  have hkept := cancelArrives_of_none (s := (s.setIr 0x0000#16).setPc (s.pc + 1#16)) hcancel
  rw [step_of_exec h (exec_zero_word (by rw [hfetch]; rfl) s.fetch), hfetch, hkept]

/-- Settles O15: by induction on n, one `step_of_zero_cell` at a time. -/
theorem unloadedMemorySlides : Obligations.UnloadedMemorySlides := by
  unfold Obligations.UnloadedMemorySlides
  intro n
  induction n with
  | zero =>
    intro s h _ _
    exact ⟨s, run_zero s, (BitVec.add_zero _).symm, fun _ _ => rfl, rfl, fun _ => rfl, ⟨rfl, rfl⟩, h⟩
  | succ n ih =>
    intro s h hcancel hcells
    have next (k : Nat) : s.pc + BitVec.ofNat 16 (k + 1) = s.pc + 1#16 + BitVec.ofNat 16 k := by
      rw [BitVec.ofNat_add]
      ac_rfl
    obtain ⟨hpc, hzero⟩ : s.pc ≠ KBSR ∧ s.rawRead s.pc = 0x0000#16 := by simpa using hcells 0 (Nat.succ_pos n)
    obtain ⟨t, hrun, hpc', hframe⟩ := ih ((s.setIr 0x0000#16).setPc (s.pc + 1#16)) h hcancel fun k hk => by
      rw [setPc_pc, ← next]
      exact hcells (k + 1) (Nat.succ_lt_succ hk)
    refine ⟨t, ?_, hpc'.trans (next n).symm, hframe⟩
    rw [run_succ (step_of_zero_cell h hcancel hpc hzero), hrun]

/-! ## Stores and later fetches -/

section
variable {i : Instr} {s t : State} {a : Word}

theorem exec_of_storeTarget {r : Reg} (h : storeTarget s i = some (a, r)) :
    ∃ p, exec i s = .next ((s.afterRead p).memWrite a (s.reg r)) := by
  cases i with
  | st | str => cases h; exact ⟨0x0000#16, by rw [afterRead_zero]; rfl⟩
  | sti => cases h; exact ⟨_, rfl⟩
  | _ => cases h

/-- The step of a store leaves the register in the cell and the core at the next instruction. -/
theorem step_of_storeTarget {r : Reg} (hs : AtBoundary s) (h : storeTarget s.fetch (decode s.fetch.ir) = some (a, r)) :
    ∃ t, step s = .next t ∧ t.rawRead a = s.reg r ∧ t.pc = s.pc + 1#16 := by
  obtain ⟨p, e⟩ := exec_of_storeTarget h
  refine ⟨_, step_of_exec hs e, ?_, ?_⟩
  · rw [rawRead_cancelArrives, rawRead_memWrite_self, reg_fetch]
  · rw [cancelArrives_pc, memWrite_pc, afterRead_pc, fetch_pc]

/-- A cell keeps its word through a step that neither stores to it nor puts a key's character there. -/
theorem step_keeps_cell (h : step s = .next t) (ha : a ≠ KBSR)
    (hstore : ∀ r, storeTarget s.fetch (decode s.fetch.ir) ≠ some (a, r))
    (hkey : a = KBDR → ∀ c, PortEvent.kbdConsume c ∉ t.events.drop s.events.length) : t.rawRead a = s.rawRead a := by
  obtain ⟨es, hes, hcells⟩ := step_writesOnly h
  rw [hes, List.drop_left] at hkey
  exact hcells a ha (not_exists.2 hstore) hkey

end

/-- Settles O21: a fetch at an address other than KBSR gives the cell (`fetch_ir_setPc`), so the claims are about what the cell holds: after
a write, after the step of a store, and, by induction on n, after steps that do not write it. -/
theorem storeIsSeenByTheNextFetch : Obligations.StoreIsSeenByTheNextFetch := by
  unfold Obligations.StoreIsSeenByTheNextFetch
  refine ⟨fun s a v ha => ?_, fun s a r hs htarget ha => ?_, fun a n f ha hsteps => ?_⟩
  · rw [fetch_ir_setPc ha, rawRead_memWrite_self]
  · obtain ⟨t, hstep, hcell, hpc⟩ := step_of_storeTarget hs htarget
    refine ⟨t, hstep, ?_, fun hnext => ?_⟩
    · rw [fetch_ir_setPc ha, hcell]
    · have at_a : t.pc = a := hpc.trans hnext.symm
      rw [fetch_ir, at_a, memRead_of_ne ha, hcell]
  · rw [fetch_ir_setPc ha, fetch_ir_setPc ha]
    induction n with
    | zero => rfl
    | succ n ih =>
      obtain ⟨hstep, hstore, hkey⟩ := hsteps n (Nat.lt_succ_self n)
      rw [step_keeps_cell hstep ha hstore hkey]
      exact ih fun k hk => hsteps k (Nat.lt_succ_of_lt hk)

end Sys2Proof.Proofs
end

section
/-!
PROOFS. What is in progress after an instruction, and what ends a run (40_execution_cycle.md R140, R153, 60_exceptions.md R243, R244): what
each kind of `Effect` leaves as the activity and the run state, and what the arrival of a cancellation then does.
-/

namespace Sys2Proof.Proofs

open Sys2Proof.Machine Sys2Proof.Safety Sys2Proof.Laws

/-! ## What is in progress -/

section
variable {i : Instr} {s t : State}

/-- An instruction leaves in progress what was, or a read that no byte answers, or a string without end. -/
theorem Effect.activity_cases (h : Effect i s t) (hs : s.activity = .idle) :
    t.activity = .idle ∨
    (readsConsole i = true ∧ s.conAnswer = none ∧ ∃ who, t.activity = .consoleWait who) ∨
    ((∀ b, t.rawRead b ≠ 0x0000#16) ∧ ∃ kind, t.activity = .stringLoop kind (s.reg .r0)) := by
  cases h with
  | dest | jump | call | stop | output => exact .inl hs
  | load p dr ea => exact .inl (by rw [loadFrom_eq, writeDest_activity, afterRead_activity, afterRead_activity, hs])
  | store p a r => exact .inl (by rw [memWrite_eq, setMem_activity, afterRead_activity, hs])
  | byte => exact .inl rfl
  | wait es who _ hi hc => exact .inr (.inl ⟨hi, hc, who, rfl⟩)
  | endless kind _ hz => exact .inr (.inr ⟨hz, kind, rfl⟩)

theorem Effect.waits (h : Effect i s t) (hs : s.activity = .idle) {who : ConsoleRead} (ht : t.activity = .consoleWait who) :
    readsConsole i = true ∧ s.conAnswer = none := by
  obtain e | ⟨hi, hc, -⟩ | ⟨-, kind, e⟩ := h.activity_cases hs
  · cases ht.symm.trans e
  · exact ⟨hi, hc⟩
  · cases ht.symm.trans e

theorem Effect.leavesRun (h : Effect i s t) : LeavesRun i s t.run := by
  cases h with
  | dest | jump | call | endless | byte | wait => exact .same
  | load p dr ea =>
    rw [loadFrom_run, afterRead_run]
    exact .same
  | store p a r =>
    rw [memWrite_run, afterRead_run]
    exact .same
  | stop r hr => exact hr
  | output es r _ hr => exact hr

end

/-- Settles O28: instructions by `exec_effect` and `Effect.activity_cases`, steps by `step_next` and `step_effect`. An arriving cancellation
keeps what is in progress or ends a wait. -/
theorem everyInstructionAndStepGivesANextState : Obligations.EveryInstructionAndStepGivesANextState := by
  unfold Obligations.EveryInstructionAndStepGivesANextState
  refine ⟨fun i s => ?_, step_next, fun s t hs h => ?_, fun s t hs h => ?_⟩
  · obtain ⟨t, ht, -⟩ := exec_effect i s
    exact ⟨t, ht⟩
  · obtain ⟨hr, hidle, hc⟩ := id hs
    obtain ⟨hn, -⟩ | ⟨-, hc', -⟩ | ⟨-, u, effect, rfl⟩ := step_effect h
    · simp [hr, hidle] at hn
    · cases hc.symm.trans hc'
    · obtain ⟨_, _, e⟩ | ⟨-, -, -, e⟩ := cancelArrives_cases u
      · have hu := effect.activity_cases ((fetch_activity s).trans hidle)
        rw [reg_fetch] at hu
        rw [e]
        exact hu
      · exact .inl (by rw [e]; rfl)
  · obtain ⟨-, rfl⟩ | ⟨-, hc, -, rfl⟩ | ⟨⟨-, hidle, -⟩, -⟩ := step_effect h
    · exact .inl rfl
    · exact .inr ⟨hc, rfl⟩
    · exact absurd hidle hs

/-! ## What ends a run -/

/-- Decoding gives HALT for its vector, and never TRAP with it. -/
theorem decode_eq_halt {w : Word} (h : RunsVector (decode w) 0x25#8) : decode w = .halt := by
  obtain e | e := h
  · have wf := wellFormed_decode w
    rw [e] at wf
    cases wf
  · exact e

/-- Settles O26: a step that ends the run acted on a pending cancellation, or ran an instruction that ended it (`Effect.leavesRun`), or
had a cancellation arrive while its read went unanswered (`Effect.waits`). -/
theorem onlyTheseEventsEndARun : Obligations.OnlyTheseEventsEndARun := by
  unfold Obligations.OnlyTheseEventsEndARun
  intro s t hs h ht
  obtain ⟨-, rfl⟩ | ⟨-, hc, ha, rfl⟩ | ⟨hb, u, effect, rfl⟩ := step_effect h
  · exact absurd hs ht
  · exact .inl ⟨rfl, hc, ha⟩
  refine .inr ⟨hb, ?_⟩
  obtain ⟨-, hidle, -⟩ := hb
  obtain ⟨_, _, e⟩ | ⟨-, ⟨who, hwait⟩, hzero, e⟩ := cancelArrives_cases u
  · have hrun : u.cancelArrives.run = u.run := by rw [e]; rfl
    rw [hrun] at ht ⊢
    have hleaves := effect.leavesRun
    generalize u.run = r at ht hleaves ⊢
    cases hleaves with
    | same => exact absurd ((fetch_run s).trans hs) ht
    | halt hi => exact .inr (.inl ⟨rfl, decode_eq_halt hi⟩)
    | res hi => exact .inr (.inr (.inl ⟨rfl, hi⟩))
    | rti hi => exact .inr (.inr (.inr (.inl ⟨rfl, hi⟩)))
    | undefined v hi hv hp =>
      rw [fetch_params] at hp
      exact .inr (.inr (.inr (.inr ⟨v, rfl, hi, hv, hp⟩)))
  · obtain ⟨hi, hc⟩ := effect.waits ((fetch_activity s).trans hidle) hwait
    refine .inl ⟨by rw [e]; rfl, hi, hc, ?_⟩
    rw [← fetch_cancelIn, ← effect.cancelIn_eq, hzero]

/-! ## Cancellation -/

/-- All that acting on a cancellation does: the run ends by Cancel, and nothing stays in progress (R243). -/
theorem haltByCancel_frame (s : State) :
    s.haltByCancel.run = .halted .cancel ∧ s.haltByCancel.activity = .idle ∧ SameRegsBut [] s s.haltByCancel ∧
      s.haltByCancel.pc = s.pc ∧ s.haltByCancel.cond = s.cond ∧ s.haltByCancel.mem = s.mem ∧ s.haltByCancel.ir = s.ir ∧
      SamePorts s s.haltByCancel ∧ s.haltByCancel.params = s.params :=
  ⟨rfl, rfl, fun _ _ => rfl, rfl, rfl, rfl, rfl, ⟨rfl, rfl⟩, rfl⟩

theorem hostCancel_cancelPending (s : State) : (hostCancel s).cancelPending = true := by
  obtain ⟨-, -, e⟩ | ⟨-, e⟩ := hostCancel_cases s <;> rw [e] <;> rfl

theorem hostCancel_of_not_waiting {s : State} (h : ∀ who, s.activity ≠ .consoleWait who) :
    hostCancel s = s.setCancelPending true := by
  obtain ⟨-, ⟨who, ha⟩, -⟩ | ⟨-, e⟩ := hostCancel_cases s
  · exact absurd ha (h who)
  · exact e

theorem hostCancel_of_waiting {s : State} {who : ConsoleRead} (hr : s.run = .running) (ha : s.activity = .consoleWait who) :
    hostCancel s = (s.setCancelPending true).haltByCancel := by
  simp [hostCancel, hr, ha]

/-- A cancellation that arrives in the console wait of a running core ends the run at once. -/
theorem cancelArrives_ends_wait {s : State} {who : ConsoleRead} (hr : s.run = .running) (ha : s.activity = .consoleWait who)
    (hnow : s.env.cancelIn = some 0) : s.cancelArrives.run = .halted .cancel ∧ s.cancelArrives.activity = .idle := by
  rw [cancelArrives_of_now hnow, hostCancel_of_waiting (s := s.setEnv { s.env with cancelIn := none }) hr ha]
  exact ⟨rfl, rfl⟩

/-- Every instruction that reads the console is left waiting when no byte comes, whichever of its names it has. -/
theorem exec_of_no_byte {i : Instr} {s : State} (hi : readsConsole i = true) (hc : s.conAnswer = none) :
    ∃ es who, exec i s = .next (readWaits s es who) := by
  have getc : ∃ es who, exec .getc s = .next (readWaits s es who) :=
    ⟨[], .getc, by rw [exec_getc, conReadFor_of_no_byte hc]⟩
  have inChar : ∃ es who, exec .inChar s = .next (readWaits s es who) :=
    ⟨s.params.inPrompt.map .conWrite, .inChar, by rw [exec_inChar, conReadFor_of_no_byte hc]⟩
  obtain ⟨hgetc, -, -, hin, -⟩ := exec_trap_service s
  cases i with
  | getc => exact getc
  | inChar => exact inChar
  | trap v =>
    obtain rfl | rfl := isReadVector_iff.1 hi
    · rwa [hgetc]
    · rwa [hin]
  | _ => cases hi

/-- No word that a fetch at KBSR gives reads the console (R142). -/
theorem pc_ne_kbsr_of_readsConsole {s : State} (h : readsConsole (decode s.fetch.ir) = true) : s.pc ≠ KBSR := by
  intro hpc
  rw [fetch_ir, hpc, memRead_kbsr] at h
  split at h <;> revert h <;> decide

/-- A GETC or IN that no byte answers while a cancellation comes: the run ends within its step, with the link done (R243). -/
theorem step_of_cancelled_read {s : State} (hs : AtBoundary s) (hnow : s.env.cancelIn = some 0)
    (hi : readsConsole (decode s.fetch.ir) = true) (hc : s.fetch.conAnswer = none) :
    ∃ t, step s = .next t ∧ t.run = .halted .cancel ∧ t.activity = .idle ∧ SameRegsBut [.r7] s t ∧
      t.reg .r7 = s.pc + 1#16 ∧ t.pc = s.pc + 1#16 ∧ t.cond = s.cond ∧ SameMem s t := by
  obtain ⟨es, who, e⟩ := exec_of_no_byte hi hc
  obtain ⟨hact, hcond, hr7, hregs, hpc, hmem, -, henv, ⟨hrun, -⟩⟩ := readWaits_values_and_frame s.fetch es who
  have hnow' : (readWaits s.fetch es who).env.cancelIn = some 0 := by
    rw [henv, conTaken_cancelIn, fetch_cancelIn, hnow]
  obtain ⟨hr, -⟩ := id hs
  obtain ⟨hended, hidle⟩ := cancelArrives_ends_wait (hrun.trans ((fetch_run s).trans hr)) hact hnow'
  have hmem_fetch : SameMem s s.fetch := fun a => by
    rw [rawRead_fetch, afterRead_of_ne (pc_ne_kbsr_of_readsConsole hi)]
  refine ⟨_, step_of_exec hs e, hended, hidle, fun r h => ?_, ?_, ?_, ?_, fun a => ?_⟩
  · rw [reg_cancelArrives, hregs r h, reg_fetch]
  · rw [reg_cancelArrives, hr7, fetch_pc]
  · rw [cancelArrives_pc, hpc, fetch_pc]
  · rw [cancelArrives_cond, hcond, fetch_cond]
  · rw [rawRead_cancelArrives, hmem a, hmem_fetch a]

/-- Settles O23: the event by `hostCancel_of_waiting` and `hostCancel_of_not_waiting`, acting on it by `haltByCancel_frame`, its arrival in
a step by `cancelArrives_of_now`, in an unanswered read by `step_of_cancelled_read`. -/
theorem cancellationIsTakenAtABoundaryOrInAWait : Obligations.CancellationIsTakenAtABoundaryOrInAWait := by
  unfold Obligations.CancellationIsTakenAtABoundaryOrInAWait
  refine ⟨fun s => ⟨hostCancel_cancelPending s, hostCancel_of_not_waiting⟩, fun s who hr ha => ?_, fun s hr hc ha => ?_,
    fun s hs hnow => ?_, fun s hs hnow hi hc => step_of_cancelled_read hs hnow hi hc, fun s kind a hr ha => ?_⟩
  · rw [hostCancel_of_waiting hr ha]
    exact haltByCancel_frame (s.setCancelPending true)
  · exact ⟨_, step_of_cancelPending hr hc ha, haltByCancel_frame s⟩
  · obtain ⟨u, e, effect⟩ := exec_effect (decode s.fetch.ir) s.fetch
    have hnow' : u.env.cancelIn = some 0 := by rw [effect.cancelIn_eq, fetch_cancelIn, hnow]
    exact ⟨u, e, by rw [step_of_exec hs e, cancelArrives_of_now hnow']⟩
  · rw [hostCancel_of_not_waiting (by simp [ha])]
    exact ⟨hr, step_of_stringLoop hr ha⟩

end Sys2Proof.Proofs
end

section
/-!
PROOFS. The memory as data (log 1), reset and boot (10_state.md R53, 70_reset_and_hazards.md R270 to R272): a canonical memory is determined
by its words, and a loaded image puts its words where LoadImage says.
-/

namespace Sys2Proof.Proofs

open Sys2Proof.Machine Sys2Proof.Safety Sys2Proof.Laws

/-! ## Canonical memories -/

theorem wfFrom_cons_iff {lo k : Nat} {v : Byte} {m : List Host.Cell} :
    Memory.wfFrom lo ((k, v) :: m) = true ↔ lo ≤ k ∧ k < 131072 ∧ v ≠ 0#8 ∧ Memory.wfFrom (k + 1) m = true := by
  simp [Memory.wfFrom, and_assoc]

theorem key_bounds_of_wfFrom {lo : Nat} {m : List Host.Cell} (h : Memory.wfFrom lo m = true) :
    ∀ e ∈ m, lo ≤ e.1 ∧ e.1 < 131072 := by
  induction m generalizing lo with
  | nil => simp
  | cons e m ih =>
    obtain ⟨k, v⟩ := e
    obtain ⟨hlo, hk, -, hm⟩ := wfFrom_cons_iff.1 h
    rintro e (_ | ⟨_, he⟩)
    · exact ⟨hlo, hk⟩
    · obtain ⟨hke, hlt⟩ := ih hm e he
      exact ⟨by omega, hlt⟩

/-- An unlisted key reads 0: below the first key, and from 131,072 on. -/
theorem byteAt_of_out_of_bounds {lo j : Nat} {m : List Host.Cell} (h : Memory.wfFrom lo m = true) (hj : j < lo ∨ 131072 ≤ j) :
    byteAt m j = 0#8 :=
  byteAt_of_no_key fun e he => by
    have := key_bounds_of_wfFrom h e he
    omega

/-- A listed byte tells a memory from one whose keys are all larger. -/
theorem byteAt_ne_of_larger_keys {lo k : Nat} {v : Byte} {m m' : List Host.Cell}
    (h : Memory.wfFrom lo ((k, v) :: m) = true) (h' : Memory.wfFrom (k + 1) m' = true) :
    byteAt ((k, v) :: m) k ≠ byteAt m' k := by
  obtain ⟨-, -, hv, -⟩ := wfFrom_cons_iff.1 h
  rw [byteAt, if_pos rfl, byteAt_of_out_of_bounds h' (.inl (Nat.lt_succ_self k))]
  exact hv

/-- The bytes determine a canonical list entry by entry: its first key is the first one that does not read 0. -/
theorem eq_of_byteAt_eq {lo : Nat} {m m' : List Host.Cell} (h : Memory.wfFrom lo m = true) (h' : Memory.wfFrom lo m' = true)
    (e : ∀ j, byteAt m j = byteAt m' j) : m = m' := by
  induction m generalizing lo m' with
  | nil =>
    cases m' with
    | nil => rfl
    | cons c' m' => exact absurd (e c'.1).symm (byteAt_ne_of_larger_keys h' rfl)
  | cons c m ih =>
    obtain ⟨k, v⟩ := c
    obtain ⟨-, hk, hv, hm⟩ := wfFrom_cons_iff.1 h
    cases m' with
    | nil => exact absurd (e k) (byteAt_ne_of_larger_keys h rfl)
    | cons c' m' =>
      obtain ⟨k', v'⟩ := c'
      obtain ⟨-, hk', hv', hm'⟩ := wfFrom_cons_iff.1 h'
      obtain hlt | rfl | hlt := Nat.lt_trichotomy k k'
      · exact absurd (e k) (byteAt_ne_of_larger_keys h (wfFrom_cons_iff.2 ⟨hlt, hk', hv', hm'⟩))
      · have head : v = v' := by simpa [byteAt] using e k
        have tail : ∀ j, byteAt m j = byteAt m' j := fun j => by
          by_cases hj : k = j
          · subst hj
            rw [byteAt_of_out_of_bounds hm (.inl (Nat.lt_succ_self k)), byteAt_of_out_of_bounds hm' (.inl (Nat.lt_succ_self k))]
          · simpa [byteAt, hj] using e j
        rw [head, ih hm hm' tail]
      · exact absurd (e k').symm (byteAt_ne_of_larger_keys h' (wfFrom_cons_iff.2 ⟨hlt, hk, hv, hm⟩))

/-- The words determine the bytes: key j is half of word j / 2, or reads 0. -/
theorem byteAt_eq_of_wordAt_eq {m m' : List Host.Cell} (h : Memory.wf m = true) (h' : Memory.wf m' = true)
    (e : ∀ a, wordAt m a = wordAt m' a) (j : Nat) : byteAt m j = byteAt m' j := by
  by_cases hj : j < 131072
  · have word := e (BitVec.ofNat 16 (j / 2))
    have hnat : (BitVec.ofNat 16 (j / 2)).toNat = j / 2 := by
      rw [BitVec.toNat_ofNat, Nat.mod_eq_of_lt (by omega)]
    rw [wordAt, wordAt, hnat] at word
    obtain hparity | hparity : j = 2 * (j / 2) ∨ j = 2 * (j / 2) + 1 := by omega
    · rw [hparity]
      simpa using congrArg lowByte word
    · rw [hparity]
      simpa using congrArg highByte word
  · rw [byteAt_of_out_of_bounds h (.inr (Nat.not_lt.1 hj)), byteAt_of_out_of_bounds h' (.inr (Nat.not_lt.1 hj))]

/-- Settles O11: the words determine the bytes, and the bytes the list. -/
theorem canonicalMemoryIsDeterminedByItsWords : Obligations.CanonicalMemoryIsDeterminedByItsWords := by
  unfold Obligations.CanonicalMemoryIsDeterminedByItsWords
  exact fun m m' h h' e => eq_of_byteAt_eq h h' (byteAt_eq_of_wordAt_eq h h' e)

/-! ## Reset -/

theorem wordAt_nil (a : Word) : wordAt [] a = 0x0000#16 := by
  simp only [wordAt, byteAt]
  decide

/-- Settles O12: each value of `State.reset`; every cell reads 0 because none is listed. -/
theorem resetValues : Obligations.ResetValues := by
  unfold Obligations.ResetValues
  refine ⟨fun r => ?_, rfl, rfl, wordAt_nil, rfl, rfl, rfl⟩
  cases r <;> rfl

/-! ## Boot -/

/-- Word j of the bytes lands at n + j as long as that is inside memory (R272). -/
theorem wordAt_loadWords (n : Nat) (bytes : List Byte) (m : List Host.Cell) (a : Word) :
    wordAt (loadWords n bytes m) a =
      if n ≤ a.toNat ∧ a.toNat - n < bytes.length / 2 then
        joinBytes (bytes.getD (2 * (a.toNat - n)) 0#8) (bytes.getD (2 * (a.toNat - n) + 1) 0#8)
      else wordAt m a := by
  have ha := a.isLt
  induction n, bytes, m using loadWords.induct with
  | case1 n m hi lo rest hn ih =>
    rw [loadWords, if_pos hn, ih, wordAt_setWord]
    obtain hlt | heq | hgt : a.toNat < n ∨ a.toNat = n ∨ n + 1 ≤ a.toNat := by omega
    · have away : a ≠ BitVec.ofNat 16 n := by bv_omega
      have outside : ¬n ≤ a.toNat := by omega
      have outside' : ¬n + 1 ≤ a.toNat := by omega
      simp [outside, outside', away]
    · have here : a = BitVec.ofNat 16 n := by bv_omega
      simp [← heq]
    · have away : a ≠ BitVec.ofNat 16 n := by bv_omega
      have next : a.toNat - n = a.toNat - (n + 1) + 1 := by omega
      have lower : n ≤ a.toNat := by omega
      have half : (rest.length + 1 + 1) / 2 = rest.length / 2 + 1 := by omega
      simp [next, hgt, lower, away, half, Nat.mul_add]
  | case2 n m hi lo rest hn =>
    have past : ¬n ≤ a.toNat := by omega
    rw [loadWords, if_neg hn, if_neg fun h => past h.1]
  | case3 bytes n m short =>
    match bytes, short with
    | [], _ => simp [loadWords]
    | [_], _ => simp [loadWords]
    | hi :: lo :: rest, short => exact absurd rfl (short hi lo rest)

theorem loadImage_of_short {bytes : List Byte} (h : bytes.length < 2) (m : List Host.Cell) : loadImage m bytes = m := by
  match bytes, h with
  | [], _ => rfl
  | [_], _ => rfl

/-- Settles O14: the contents by `wordAt_loadWords`; the boot state is reset in every field but its memory by definition. -/
theorem loadImageContents : Obligations.LoadImageContents := by
  unfold Obligations.LoadImageContents
  exact ⟨fun m hi lo rest a => wordAt_loadWords _ rest m a, fun m bytes h => loadImage_of_short h m,
    fun images => ⟨rfl, rfl, rfl, rfl, rfl, rfl, rfl, rfl, rfl, rfl, rfl⟩⟩

theorem wf_loadWords (n : Nat) (bytes : List Byte) {m : List Host.Cell} (h : Memory.wf m = true) :
    Memory.wf (loadWords n bytes m) = true := by
  induction n, bytes, m using loadWords.induct with
  | case1 n m hi lo rest hn ih =>
    rw [loadWords, if_pos hn]
    exact ih (wf_setWord _ _ h)
  | case2 n m hi lo rest hn => rwa [loadWords, if_neg hn]
  | case3 bytes n m short => rwa [loadWords.eq_2 n bytes m short]

theorem wf_loadImage {m : List Host.Cell} (h : Memory.wf m = true) (bytes : List Byte) : Memory.wf (loadImage m bytes) = true := by
  unfold loadImage
  split
  · exact wf_loadWords _ _ h
  · exact h

theorem wf_boot (images : List (List Byte)) : Memory.wf (boot images).mem = true :=
  List.foldlRecOn (motive := fun m => Memory.wf m = true) images loadImage reset_memory_wf fun _ h bytes _ => wf_loadImage h bytes

end Sys2Proof.Proofs
end

section
/-!
PROOFS. The invariant (10_state.md R45, R50, 45_trap.md R218). At a step boundary it is no more than a canonical memory and a legal COND, so
each kind of `Effect` has to keep these two, and the two kinds that leave something in progress the rest as well.
-/

namespace Sys2Proof.Proofs

open Sys2Proof.Machine Sys2Proof.Safety Sys2Proof.Laws

/-! ## Operations that keep the invariant -/

section
variable {i : Instr} {s t : State}

/-- With nothing in progress the invariant is about memory and COND alone. -/
theorem inv_of_idle (hm : Memory.wf s.mem = true) (hc : CondLegal s.cond) (ha : s.activity = .idle) : Inv s where
  memory := hm
  cond := hc
  ended := fun _ => ha
  link := fun h => absurd ha h
  endless := fun kind a h => by cases ha.symm.trans h

theorem wf_memWrite (h : Memory.wf s.mem = true) (a v : Word) : Memory.wf (s.memWrite a v).mem = true := wf_setWord a v h

theorem inv_fetch (h : Inv s) (hidle : s.activity = .idle) : Inv s.fetch :=
  inv_of_idle (wf_afterRead s s.pc h.memory) (by rw [fetch_cond]; exact h.cond) ((fetch_activity s).trans hidle)

/-- The arrival of a cancellation keeps the invariant: it touches no more than the flag and the environment, or it ends a wait. -/
theorem inv_cancelArrives (h : Inv s) : Inv s.cancelArrives := by
  obtain ⟨_, _, e⟩ | ⟨-, -, -, e⟩ := cancelArrives_cases s <;> rw [e]
  · exact ⟨h.memory, h.cond, h.ended, h.link, h.endless⟩
  · exact inv_of_idle h.memory h.cond rfl

/-- An instruction that starts at a boundary keeps the invariant. -/
theorem Effect.inv (h : Effect i s t) (hs : Inv s) (hrun : s.run = .running) (hidle : s.activity = .idle) : Inv t := by
  have hm := hs.memory
  have hc := hs.cond
  cases h with
  | dest dr v =>
    refine inv_of_idle hm ?_ hidle
    rw [writeDest_cond]
    exact condLegal_condOf v
  | load p dr ea =>
    refine inv_of_idle (wf_afterRead _ ea (wf_afterRead s p hm)) ?_ ?_
    · rw [loadFrom_cond]
      exact condLegal_condOf _
    · rw [loadFrom_eq, writeDest_activity, afterRead_activity, afterRead_activity, hidle]
  | store p a r =>
    refine inv_of_idle (wf_memWrite (wf_afterRead s p hm) a _) ?_ ?_
    · rw [memWrite_cond, afterRead_cond]
      exact hc
    · rw [memWrite_eq, setMem_activity, afterRead_activity, hidle]
  | jump | call | stop | output => exact inv_of_idle hm hc hidle
  | byte es b => exact inv_of_idle hm (condLegal_condOf (zext8 b)) rfl
  | wait es who =>
    exact ⟨hm, hc, fun h => absurd hrun h, fun _ => reg_r7_link s, fun kind a h => by cases h⟩
  | endless kind _ hz =>
    exact ⟨hm, hc, fun h => absurd hrun h, fun _ => reg_r7_link s, fun _ _ _ => hz⟩

theorem step_keeps_inv (hs : Inv s) (h : step s = .next t) : Inv t := by
  obtain ⟨-, rfl⟩ | ⟨-, -, -, rfl⟩ | ⟨⟨hrun, hidle, -⟩, u, effect, rfl⟩ := step_effect h
  · exact hs
  · exact inv_of_idle hs.memory hs.cond rfl
  · exact inv_cancelArrives
      (effect.inv (inv_fetch hs hidle) ((fetch_run s).trans hrun) ((fetch_activity s).trans hidle))

end

/-- Settles O16: `step_keeps_inv`. -/
theorem stepKeepsTheInvariant : Obligations.StepKeepsTheInvariant := by
  unfold Obligations.StepKeepsTheInvariant
  exact fun s t => step_keeps_inv

/-! ## Reset, boot and runs -/

/-- Settles O13: nothing is in progress at reset, its memory is empty and COND is ZRO. -/
theorem resetMeetsTheInvariant : Obligations.ResetMeetsTheInvariant := by
  unfold Obligations.ResetMeetsTheInvariant
  exact inv_of_idle reset_memory_wf (.inr (.inl rfl)) rfl

/-- Settles O17: the invariant holds at boot, and every step keeps it (`run_keeps`). -/
theorem runsFromBootKeepTheInvariant : Obligations.RunsFromBootKeepTheInvariant := by
  unfold Obligations.RunsFromBootKeepTheInvariant
  intro images k t h
  have hboot : Inv (boot images) := inv_of_idle (wf_boot images) (.inr (.inl rfl)) rfl
  exact run_keeps (fun _ _ => step_keeps_inv) k (boot images) t hboot h

end Sys2Proof.Proofs
end
